-- ==== Sys2Proof/Word.lean ====
section
/-! DEFINITION. The word types of the block: bytes of a buffer, 32-bit bus words, 64-bit register pairs. -/

namespace Sys2Proof

/-- One byte of a buffer (spec/00_scope.md R12). -/
abbrev Byte := BitVec 8

/-- One 32-bit word: a register, a bus datum, a SHA-1 word (spec/20_memory.md R60, R66). -/
abbrev Word := BitVec 32

/-- A 64-bit value held as a `_LO` and a `_HI` word (spec/20_memory.md R65). -/
abbrev DWord := BitVec 64

end Sys2Proof
end

