-- ==== Sys2Proof/Syntax.lean ====
section
/-! DEFINITION. The commands: one constructor per row of spec/opcode_table.json. A command has no operand
field (spec/30_encoding.md R95); the illegal row keeps the word that was written. -/

namespace Sys2Proof

/-- A command of the block (spec/30_encoding.md R92). -/
inductive Instr where
  /-- NOP, OP 0 (spec/43_control.md R210). -/
  | nop
  /-- B32_ENC, OP 1 (spec/40_base32.md R112). -/
  | b32Enc
  /-- B32_DEC, OP 2 (spec/40_base32.md R114). -/
  | b32Dec
  /-- HMAC, OP 3 (spec/41_hmac_hotp.md R150). -/
  | hmac
  /-- TSTEP, OP 4 (spec/42_totp.md R181). -/
  | tstep
  /-- HOTP, OP 5 (spec/41_hmac_hotp.md R155). -/
  | hotp
  /-- TOTP, OP 6 (spec/42_totp.md R182). -/
  | totp
  /-- VERIFY, OP 7 (spec/42_totp.md R186). -/
  | verify
  /-- Every other word w: it runs like a command and commits IllegalCommand
  (spec/30_encoding.md R91, R93). -/
  | illegal (w : Word)
deriving DecidableEq, Repr

end Sys2Proof
end

