-- ==== Sys2Proof/WellFormed.lean ====
section
/-! DEFINITION. The well-formed commands. The one check: the word of an illegal command is one that the
spec calls illegal. -/

namespace Sys2Proof

/-- The illegal words: bits 31:4 not all zero, or OP in 8..15 (spec/30_encoding.md R91, R93). -/
def illegalWord (w : Word) : Bool :=
  w.extractLsb' 4 28 != 0 || decide (8 ≤ (w.extractLsb' 0 4).toNat)

/-- The well-formedness check of a command. -/
def Instr.check : Instr → Bool
  | .nop => true
  | .b32Enc => true
  | .b32Dec => true
  | .hmac => true
  | .tstep => true
  | .hotp => true
  | .totp => true
  | .verify => true
  | .illegal w => illegalWord w

/-- A command is well formed when its check passes. -/
abbrev Instr.WellFormed (i : Instr) : Prop := i.check = true

end Sys2Proof
end

