-- ==== Sys2Proof/Decode.lean ====
section
/-! DEFINITION. The decoder of command words, total on words and on byte lists, and the encoder, both
written from spec/30_encoding.md R90 to R92. -/

namespace Sys2Proof

/-- Decoding of a command word (spec/30_encoding.md R91, R92): total, one command for every word. -/
def decodeWord (w : Word) : Instr :=
  if w.extractLsb' 4 28 ≠ 0 then .illegal w
  else
    match (w.extractLsb' 0 4).toNat with
    | 0 => .nop
    | 1 => .b32Enc
    | 2 => .b32Dec
    | 3 => .hmac
    | 4 => .tstep
    | 5 => .hotp
    | 6 => .totp
    | 7 => .verify
    | _ => .illegal w

/-- Why a list of bytes is no command word. -/
inductive DecodeError where
  /-- The bytes are not the four lanes of one word: "A decoder always finds the length: it is one word"
  (spec/30_encoding.md R90), and a write of fewer lanes never reaches CMD (spec/20_memory.md R66). -/
  | notOneWord (count : Nat)
deriving DecidableEq, Repr

/-- Decoding of the byte lanes of the bus, lane 0 (bits 7:0) first (log 11). -/
def decode : List Byte → Except DecodeError Instr
  | [b0, b1, b2, b3] => .ok (decodeWord (b3 ++ b2 ++ b1 ++ b0))
  | bytes => .error (.notOneWord bytes.length)

/-- The word of each command (spec/30_encoding.md R92, the column "word"). -/
def encode : Instr → Word
  | .nop => 0x00000000
  | .b32Enc => 0x00000001
  | .b32Dec => 0x00000002
  | .hmac => 0x00000003
  | .tstep => 0x00000004
  | .hotp => 0x00000005
  | .totp => 0x00000006
  | .verify => 0x00000007
  | .illegal w => w

/-- The byte lanes of a command's word, lane 0 first. -/
def encodeBytes (i : Instr) : List Byte :=
  let w := encode i
  [w.extractLsb' 0 8, w.extractLsb' 8 8, w.extractLsb' 16 8, w.extractLsb' 24 8]

/-- The bytes of the low `nbits` bits of `w`, at least one whole word of them, lane 0 first. -/
def tableBytes (nbits w : Nat) : List Byte :=
  (List.range (max 4 ((nbits + 7) / 8))).map fun k => BitVec.ofNat 8 ((w % 2 ^ nbits) >>> (8 * k))

/-- The command the decoder reads from the word whose bits are `w` (bit 0 least significant). -/
def decodeTableWord (nbits w : Nat) : Option Instr :=
  (decode (tableBytes nbits w)).toOption

end Sys2Proof
end

