-- ==== Sys2Proof/Config.lean ====
section
/-! DEFINITION. What this hardware fixes (spec/00_scope.md R8), what the platform fixes, and the one
value the spec leaves undefined. -/

namespace Sys2Proof

/-- The constant of the ID register: BLOCK 0x2FA0, MAJOR 1, MINOR 0 (spec/10_state.md R22). -/
def Config.idWord : Word := 0x2FA00100

/-- KEY_MAX, the size of the key buffer in bytes (spec/00_scope.md R8). -/
abbrev Config.keyMax : Nat := 64

/-- TEXT_MAX, the size of the Base32 text buffer in bytes (spec/00_scope.md R8). -/
abbrev Config.textMax : Nat := 128

/-- CAND_MAX, the size of the candidate buffer in bytes (spec/00_scope.md R8). -/
abbrev Config.candMax : Nat := 12

/-- The largest legal code length (spec/10_state.md R35). -/
abbrev Config.digitsMax : Nat := 10

/-- BASE_ADDR, where the platform puts the window in the host's address space. OPEN in
spec/20_memory.md R63: a constant that nothing can evaluate (log 10). -/
opaque Config.baseAddr : Nat

/-- IRQ_LINE, where the platform wires irq. OPEN in spec/60_exceptions.md R242 (log 10). -/
opaque Config.irqLine : Nat

/-- The response (pslverr, prdata) of the n-th access that a hardware reset cuts. The spec says "its
response is undefined" (spec/70_reset_and_hazards.md R270): a free value (log 5). -/
opaque Config.cutResponse : Nat → Bool × Option Word

end Sys2Proof
end

