-- ==== Sys2Proof/Machine/State.lean ====
section
/-! DEFINITION. Everything the spec gives the block to hold (spec/10_state.md), as plain data, the bus
transactions and the events that reach it, and the state right after reset. -/

namespace Sys2Proof.Machine

/-- The completion codes of STATUS.ERR (spec/60_exceptions.md R230). Codes 5 to 15 are "reserved, never
produced" (spec/10_state.md R32) and are no value of this type (log 9). -/
inductive Completion where
  | ok
  | invalidEncoding
  | invalidParameters
  | illegalCommand
  | capacityExceeded
deriving DecidableEq, Repr

/-- The engine phase (spec/10_state.md R49). The running command is the decoded CMD word, or the illegal
word itself. -/
inductive Phase where
  | idle
  | busy (op : Instr)
deriving DecidableEq, Repr

/-- The registers and buffer words of the window (spec/20_memory.md R63); every other aligned offset is
`reserved`. -/
inductive Reg where
  | id
  | ctrl
  | status
  | cmd
  | cfg
  | stepReg
  | timeLo
  | timeHi
  | cntLo
  | cntHi
  | klen
  | tlen
  | clen
  | trunc
  | code
  | ofs
  | codeTxt (k : Fin 3)
  | cand (k : Fin 3)
  | digest (k : Fin 5)
  | key (k : Fin 16)
  | text (k : Fin 32)
  | reserved
deriving DecidableEq, Repr

/-- The direction of a bus access (spec/30_encoding.md R96). -/
inductive Dir where
  | read
  | write
deriving DecidableEq, Repr

/-- One host bus transaction, with the fields and widths of spec/30_encoding.md R96. For a read, `data`
and `strb` play no part. -/
structure BusAccess where
  dir  : Dir
  addr : BitVec 12
  data : Word
  strb : BitVec 4
deriving DecidableEq, Repr

/-- The block's answer to an access (spec/20_memory.md R61, R62): the error response, and the read data of
a read. A write has no read data (log 4). -/
structure Response where
  slverr : Bool
  rdata  : Option Word
deriving DecidableEq, Repr

/-- What happens next to the block (spec/60_exceptions.md R244: events are totally ordered). -/
inductive Event where
  /-- The host makes one access. -/
  | access (a : BusAccess)
  /-- The engine takes its turn: it commits if it is BUSY (spec/60_exceptions.md R237; log 1). -/
  | engineTurn
  /-- rst_n falls; `cut` says that an access was in progress (spec/70_reset_and_hazards.md R270). -/
  | resetAssert (cut : Bool)
  /-- rst_n rises. -/
  | resetRelease
deriving DecidableEq, Repr

/-- The reasons for which the machine stops with a fault. There are none: "The block has no traps"
(spec/60_exceptions.md), and a failing command completes with a code in STATUS.ERR (R236). -/
inductive Fault
deriving DecidableEq, Repr

/-- The reasons for which the model gives no meaning. -/
inductive Refusal where
  /-- Raised by an arm of `exec` whose command has no meaning yet. Safe: nothing is claimed of it. No arm
  raises it in this model. -/
  | notModelled (mnemonic : String)
  /-- Raised by the step for a host access while rst_n is low: "the host must not access; a model has no
  host step during reset" (spec/93_implementation_defined.md U13; log 6). Safe. -/
  | accessDuringReset
deriving DecidableEq, Repr

/-- The state of the block. The comment of each field names its rule in spec/10_state.md; the last three
fields are the model's own (logs 1, 4, 5). -/
structure State where
  /-- The engine phase, seen by software as STATUS.BUSY (R27, R49). -/
  phase    : Phase
  /-- CTRL.IE (R23, R24). -/
  ie       : Bool
  /-- STATUS.DONE (R28). -/
  done     : Bool
  /-- STATUS.VALID (R29). -/
  valid    : Bool
  /-- STATUS.COVR (R30). -/
  covr     : Bool
  /-- STATUS.WIGN (R31). -/
  wign     : Bool
  /-- STATUS.ERR (R32). -/
  err      : Completion
  /-- CFG.DIGITS (R35). -/
  digits   : BitVec 4
  /-- CFG.ALG (R36). -/
  alg      : BitVec 2
  /-- CFG.WINDOW (R37). -/
  window   : BitVec 8
  /-- STEP (R38). -/
  stepReg  : Word
  /-- TIME = TIME_HI ‖ TIME_LO (R39). -/
  time     : DWord
  /-- COUNTER = CNT_HI ‖ CNT_LO (R40). -/
  counter  : DWord
  /-- KEY (R41). -/
  key      : Vector Byte 64
  /-- KLEN (R41). -/
  klen     : BitVec 7
  /-- TEXT (R42). -/
  text     : Vector Byte 128
  /-- TLEN (R42). -/
  tlen     : BitVec 8
  /-- CAND (R43). -/
  cand     : Vector Byte 12
  /-- CLEN (R43). -/
  clen     : BitVec 4
  /-- DIGEST (R44). -/
  digest   : Vector Byte 20
  /-- CODE_TXT (R45). -/
  codeTxt  : Vector Byte 12
  /-- TRUNC (R46). -/
  trunc    : BitVec 31
  /-- OFS (R46). -/
  ofs      : BitVec 4
  /-- CODE (R47). -/
  code     : BitVec 31
  /-- The input rst_n is low (spec/70_reset_and_hazards.md R270). -/
  rstLow   : Bool
  /-- Model: what happens next, in order (log 1). -/
  inbox    : List Event
  /-- Model: the answer to the last access (log 4). -/
  response : Option Response
  /-- Model: how many free values have been drawn (log 5). -/
  drawn    : Nat
deriving DecidableEq, Repr

/-- The state right after reset: the table of spec/10_state.md R51, rst_n released, and nothing pending. -/
def State.reset : State where
  phase := .idle
  ie := false
  done := false
  valid := false
  covr := false
  wign := false
  err := .ok
  digits := 6
  alg := 0
  window := 1
  stepReg := 0x1E
  time := 0
  counter := 0
  key := Vector.replicate 64 0
  klen := 0
  text := Vector.replicate 128 0
  tlen := 0
  cand := Vector.replicate 12 0
  clen := 0
  digest := Vector.replicate 20 0
  codeTxt := Vector.replicate 12 0
  trunc := 0
  ofs := 0
  code := 0
  rstLow := false
  inbox := []
  response := none
  drawn := 0

end Sys2Proof.Machine
end

