-- ==== Sys2Proof/Machine/Operands.lean ====
section
/-! DEFINITION. Byte strings, byte lanes and buffers, and the operands that commands read from the
registers (spec/20_memory.md R64, R65; spec/10_state.md R48; spec/30_encoding.md R95). -/

namespace Sys2Proof.Machine

/-- Byte `i` of a buffer. -/
def byteAt {n : Nat} (buf : Vector Byte n) (i : Nat) : Byte := buf.toList.getD i 0

/-- A buffer that begins with `bytes` and is 0x00 after them. -/
def fillBuffer (n : Nat) (bytes : List Byte) : Vector Byte n :=
  Vector.ofFn fun i => bytes.getD i.val 0

/-- The first `len` bytes of a buffer, `X[0..len)` (spec/00_scope.md R12). -/
def takeBytes {n : Nat} (buf : Vector Byte n) (len : Nat) : List Byte := buf.toList.take len

/-- Lane `j` of a bus word: bits 8j+7 .. 8j (spec/20_memory.md R64). -/
def lane (w : Word) (j : Nat) : Byte := w.extractLsb' (8 * j) 8

/-- The word whose lanes 0 to 3 are the given bytes (spec/20_memory.md R64). -/
def packLanes (b0 b1 b2 b3 : Byte) : Word := b3 ++ b2 ++ b1 ++ b0

/-- Word `k` of a buffer (spec/43_control.md R212, "buffer word Xk"). -/
def bufferWord {n : Nat} (buf : Vector Byte n) (k : Nat) : Word :=
  packLanes (byteAt buf (4 * k)) (byteAt buf (4 * k + 1)) (byteAt buf (4 * k + 2)) (byteAt buf (4 * k + 3))

/-- A buffer after a write of `w` to its word `k`: bytes 4k..4k+3 are stored (spec/43_control.md R211). -/
def setBufferWord {n : Nat} (buf : Vector Byte n) (k : Nat) (w : Word) : Vector Byte n :=
  Vector.ofFn fun i => if i.val / 4 = k then lane w (i.val % 4) else buf[i]

/-- The `_LO` word of a 64-bit register (spec/20_memory.md R65). -/
def loWord (d : DWord) : Word := d.extractLsb' 0 32

/-- The `_HI` word of a 64-bit register (spec/20_memory.md R65). -/
def hiWord (d : DWord) : Word := d.extractLsb' 32 32

/-- A 64-bit register after a write of its `_LO` word. -/
def withLo (d : DWord) (w : Word) : DWord := hiWord d ++ w

/-- A 64-bit register after a write of its `_HI` word. -/
def withHi (d : DWord) (w : Word) : DWord := w ++ loWord d

/-- `BE32(B, o)`, four bytes most significant first (spec/00_scope.md R12). -/
def be32 (bytes : List Byte) (o : Nat) : Word :=
  bytes.getD o 0 ++ bytes.getD (o + 1) 0 ++ bytes.getD (o + 2) 0 ++ bytes.getD (o + 3) 0

/-- The four bytes of a word, most significant first (spec/41_hmac_hotp.md R146). -/
def be32Bytes (w : Word) : List Byte := [lane w 3, lane w 2, lane w 1, lane w 0]

/-- `BE64(c)`: byte k is bits 63-8k .. 56-8k (spec/00_scope.md R12). -/
def be64Bytes (c : DWord) : List Byte :=
  (List.range 8).map fun k => c.extractLsb' (56 - 8 * k) 8

/-- The key, `KEY[0..KLEN)` (spec/10_state.md R41). -/
def State.keyBytes (s : State) : List Byte := takeBytes s.key s.klen.toNat

/-- The Base32 text, `TEXT[0..TLEN)` (spec/10_state.md R42). -/
def State.textBytes (s : State) : List Byte := takeBytes s.text s.tlen.toNat

/-- The candidate, `CAND[0..CLEN)` (spec/10_state.md R43). -/
def State.candBytes (s : State) : List Byte := takeBytes s.cand s.clen.toNat

end Sys2Proof.Machine
end

