-- ==== Sys2Proof/Machine/Flags.lean ====
section
/-! DEFINITION. STATUS as software sees it, irq, the write-1-to-clear rule, and the checks that decide a
command's completion code (spec/10_state.md R26 to R32; spec/60_exceptions.md R230 to R235, R242). -/

namespace Sys2Proof.Machine

/-- The numbers of the completion codes (spec/60_exceptions.md R230). -/
def Completion.code : Completion → BitVec 4
  | .ok => 0
  | .invalidEncoding => 1
  | .invalidParameters => 2
  | .illegalCommand => 3
  | .capacityExceeded => 4

/-- STATUS.BUSY: 1 exactly when the phase is BUSY (spec/10_state.md R49). -/
def State.busy (s : State) : Bool :=
  match s.phase with
  | .idle => false
  | .busy _ => true

/-- The output irq = CTRL.IE & STATUS.DONE (spec/10_state.md R50; spec/60_exceptions.md R242). -/
def State.irq (s : State) : Bool := s.ie && s.done

/-- STATUS as a read returns it (spec/10_state.md R26; spec/43_control.md R212). -/
def State.statusWord (s : State) : Word :=
  0#20 ++ s.err.code ++ 0#3 ++ BitVec.ofBool s.wign ++ BitVec.ofBool s.covr ++ BitVec.ofBool s.valid
    ++ BitVec.ofBool s.done ++ BitVec.ofBool s.busy

/-- CFG as a read returns it (spec/10_state.md R34; spec/43_control.md R212). -/
def State.cfgWord (s : State) : Word := 0#16 ++ s.window ++ 0#2 ++ s.alg ++ s.digits

/-- A write of `v` to STATUS: bits 1, 3 and 4 clear DONE, COVR and WIGN (spec/43_control.md R214). -/
def clearStatus (v : Word) (s : State) : State :=
  { s with
    done := s.done && !v.getLsbD 1
    covr := s.covr && !v.getLsbD 3
    wign := s.wign && !v.getLsbD 4 }

/-- KLEN does not fit the key buffer (spec/60_exceptions.md R234). -/
def State.keyTooLong (s : State) : Bool := decide (Config.keyMax < s.klen.toNat)

/-- TLEN does not fit the text buffer (spec/60_exceptions.md R234). -/
def State.textTooLong (s : State) : Bool := decide (Config.textMax < s.tlen.toNat)

/-- CLEN does not fit the candidate buffer (spec/60_exceptions.md R234). -/
def State.candTooLong (s : State) : Bool := decide (Config.candMax < s.clen.toNat)

/-- CFG.ALG selects a hash this block does not have (spec/60_exceptions.md R232). -/
def State.badAlg (s : State) : Bool := s.alg != 0

/-- CFG.DIGITS is not 1 to 10 (spec/60_exceptions.md R232). -/
def State.badDigits (s : State) : Bool :=
  decide (s.digits.toNat = 0) || decide (Config.digitsMax < s.digits.toNat)

/-- STEP = 0 or TIME[63] = 1 (spec/60_exceptions.md R232; spec/42_totp.md R180). -/
def State.badTimeStep (s : State) : Bool := decide (s.stepReg = 0) || s.time.getLsbD 63

end Sys2Proof.Machine
end

