-- ==== Sys2Proof/Machine/Ops.lean ====
section
/-! DEFINITION. The shared operations: starting a command, committing it, failing it, resetting the block,
and the address map of the window. -/

namespace Sys2Proof.Machine

/-- What every meaning answers. -/
abbrev Result := Host.Outcome State Fault Refusal

/-- Command start (spec/60_exceptions.md R238): the decoded word becomes the running command. -/
def start (op : Instr) (s : State) : State :=
  { s with phase := .busy op, done := false, valid := false, err := .ok }

/-- The STATUS part of a commit (spec/60_exceptions.md R237). -/
def commit (err : Completion) (valid : Bool) (s : State) : State :=
  { s with phase := .idle, done := true, valid := valid, err := err }

/-- The commit of a command that ends with ERR = OK; `s` already holds its results. -/
def complete (valid : Bool) (s : State) : Result := .next (commit .ok valid s)

/-- `raise E` (spec/60_exceptions.md R236): the block's exception. The command ends, STATUS.ERR holds the
code, VALID is 0, and no register outside STATUS is written. There is no handler and no return
(spec/60_exceptions.md R245): the engine is IDLE again. -/
def raise (e : Completion) (s : State) : Result := .next (commit e false s)

/-- The effect of a reset (spec/70_reset_and_hazards.md R271): every register takes its value of
spec/10_state.md R51 and a running command is abandoned. The input rst_n and the model's own fields are no
register (log 8). -/
def resetBlock (s : State) : State :=
  { State.reset with rstLow := s.rstLow, inbox := s.inbox, response := s.response, drawn := s.drawn }

/-- The block answers an access. -/
def respond (r : Response) (s : State) : State := { s with response := some r }

/-- The register at an aligned byte offset (spec/20_memory.md R63). -/
def regAt (addr : BitVec 12) : Reg :=
  let n := addr.toNat
  if h : 0x040 ≤ n ∧ n < 0x04C then .codeTxt ⟨(n - 0x040) / 4, by omega⟩
  else if h : 0x050 ≤ n ∧ n < 0x05C then .cand ⟨(n - 0x050) / 4, by omega⟩
  else if h : 0x060 ≤ n ∧ n < 0x074 then .digest ⟨(n - 0x060) / 4, by omega⟩
  else if h : 0x100 ≤ n ∧ n < 0x140 then .key ⟨(n - 0x100) / 4, by omega⟩
  else if h : 0x200 ≤ n ∧ n < 0x280 then .text ⟨(n - 0x200) / 4, by omega⟩
  else
    match n with
    | 0x000 => .id
    | 0x004 => .ctrl
    | 0x008 => .status
    | 0x00C => .cmd
    | 0x010 => .cfg
    | 0x014 => .stepReg
    | 0x018 => .timeLo
    | 0x01C => .timeHi
    | 0x020 => .cntLo
    | 0x024 => .cntHi
    | 0x028 => .klen
    | 0x02C => .tlen
    | 0x030 => .clen
    | 0x034 => .trunc
    | 0x038 => .code
    | 0x03C => .ofs
    | _ => .reserved

/-- An access is misaligned when addr[1:0] is not 0 (spec/20_memory.md R67). -/
def misaligned (addr : BitVec 12) : Bool := addr.extractLsb' 0 2 != 0

/-- Where an offset of the window lies in the host's address space (spec/20_memory.md R63). -/
def hostAddress (addr : BitVec 12) : Nat := Config.baseAddr + addr.toNat

end Sys2Proof.Machine
end

