-- ==== Sys2Proof/Machine/Bus.lean ====
section
/-! DEFINITION. The host's register reads and writes (spec/43_control.md R211 to R214; spec/20_memory.md
R66 to R73). -/

namespace Sys2Proof.Machine

/-- The soft reset of a CTRL write with bit 1 = 1 (spec/43_control.md R213; spec/10_state.md R25). -/
def softReset (s : State) : State := resetBlock s

/-- What a read of a register returns (spec/43_control.md R212). -/
def readReg (r : Reg) (s : State) : Word :=
  match r with
  | .id => Config.idWord
  | .ctrl => (BitVec.ofBool s.ie).zeroExtend 32
  | .status => s.statusWord
  | .cmd => 0
  | .cfg => s.cfgWord
  | .stepReg => s.stepReg
  | .timeLo => loWord s.time
  | .timeHi => hiWord s.time
  | .cntLo => loWord s.counter
  | .cntHi => hiWord s.counter
  | .klen => s.klen.zeroExtend 32
  | .tlen => s.tlen.zeroExtend 32
  | .clen => s.clen.zeroExtend 32
  | .trunc => s.trunc.zeroExtend 32
  | .code => s.code.zeroExtend 32
  | .ofs => s.ofs.zeroExtend 32
  | .codeTxt k => bufferWord s.codeTxt k.val
  | .cand k => bufferWord s.cand k.val
  | .digest k => bufferWord s.digest k.val
  | .key k => bufferWord s.key k.val
  | .text k => bufferWord s.text k.val
  | .reserved => 0

/-- A write of an operand register: stored when the engine is IDLE, dropped with WIGN = 1 when it is BUSY
(spec/10_state.md R31; spec/43_control.md R211). `stored` is the state after the store. -/
def operandWrite (stored s : State) : State := if s.busy then { s with wign := true } else stored

/-- What a full-word write of `v` to a register does (spec/43_control.md R211). An operand register keeps
its defined bits of `v`. -/
def writeReg (r : Reg) (v : Word) (s : State) : State :=
  match r with
  | .cmd => if s.busy then { s with covr := true } else start (decodeWord v) s
  | .ctrl => if v.getLsbD 1 then softReset s else { s with ie := v.getLsbD 0 }
  | .status => clearStatus v s
  | .cfg =>
    operandWrite { s with digits := v.extractLsb' 0 4, alg := v.extractLsb' 4 2, window := v.extractLsb' 8 8 } s
  | .stepReg => operandWrite { s with stepReg := v } s
  | .timeLo => operandWrite { s with time := withLo s.time v } s
  | .timeHi => operandWrite { s with time := withHi s.time v } s
  | .cntLo => operandWrite { s with counter := withLo s.counter v } s
  | .cntHi => operandWrite { s with counter := withHi s.counter v } s
  | .klen => operandWrite { s with klen := v.extractLsb' 0 7 } s
  | .tlen => operandWrite { s with tlen := v.extractLsb' 0 8 } s
  | .clen => operandWrite { s with clen := v.extractLsb' 0 4 } s
  | .cand k => operandWrite { s with cand := setBufferWord s.cand k.val v } s
  | .key k => operandWrite { s with key := setBufferWord s.key k.val v } s
  | .text k => operandWrite { s with text := setBufferWord s.text k.val v } s
  | .id => s
  | .trunc => s
  | .code => s
  | .ofs => s
  | .codeTxt _ => s
  | .digest _ => s
  | .reserved => s

/-- A host read: the error response with data 0 when misaligned, else the register's word
(spec/43_control.md R212; spec/20_memory.md R67). Nothing but the response changes (R71). -/
def busRead (addr : BitVec 12) (s : State) : State :=
  if misaligned addr then respond ⟨true, some 0⟩ s
  else respond ⟨false, some (readReg (regAt addr) s)⟩ s

/-- A host write: the error response and no change when misaligned or with a strobe missing
(spec/43_control.md R211; spec/20_memory.md R66, R67). -/
def busWrite (addr : BitVec 12) (strb : BitVec 4) (v : Word) (s : State) : State :=
  if misaligned addr || strb != 0b1111 then respond ⟨true, none⟩ s
  else respond ⟨false, none⟩ (writeReg (regAt addr) v s)

/-- One host access (spec/20_memory.md R62). -/
def busAccess (a : BusAccess) (s : State) : State :=
  match a.dir with
  | .read => busRead a.addr s
  | .write => busWrite a.addr a.strb a.data s

end Sys2Proof.Machine
end

