-- ==== Sys2Proof/Machine/Base32.lean ====
section
/-! DEFINITION. The Base32 codec and its commands B32_ENC and B32_DEC (spec/40_base32.md). -/

namespace Sys2Proof.Machine

/-- `ALPHA[v]` for v = 0..31 (spec/40_base32.md R110). -/
def alpha (v : Nat) : Byte :=
  if v < 26 then BitVec.ofNat 8 (0x41 + v) else BitVec.ofNat 8 (0x32 + (v - 26))

/-- `val(ch)`, none where it is undefined (spec/40_base32.md R111). -/
def charValue (ch : Byte) : Option Nat :=
  let c := ch.toNat
  if 0x41 ≤ c ∧ c ≤ 0x5A then some (c - 0x41)
  else if 0x61 ≤ c ∧ c ≤ 0x7A then some (c - 0x61)
  else if 0x32 ≤ c ∧ c ≤ 0x37 then some (c - 0x32 + 26)
  else none

/-- The inner loop of R112: while at least 5 bits are held, the top 5 of them become a character. -/
def drain (acc : Nat) : Nat → List Byte
  | nb + 5 => alpha ((acc >>> nb) % 32) :: drain acc nb
  | _ => []

/-- The loop of R112 over the bytes, with the bit accumulator `acc` and its fill `nb` (log 13). -/
def encodeFrom (acc nb : Nat) : List Byte → List Byte
  | [] => if nb = 0 then [] else [alpha ((acc <<< (5 - nb)) % 32)]
  | b :: bytes =>
    let acc' := acc <<< 8 ||| b.toNat
    drain acc' (nb + 8) ++ encodeFrom acc' ((nb + 8) % 5) bytes

/-- `encode(bytes) -> text` (spec/40_base32.md R112). -/
def base32Encode (bytes : List Byte) : List Byte := encodeFrom 0 0 bytes

/-- Every `=` at the end of the text is removed (spec/40_base32.md R115). -/
def stripPadding (text : List Byte) : List Byte :=
  (text.reverse.dropWhile fun ch => ch == 0x3D).reverse

/-- The values of the characters, none if one is outside the alphabet (spec/40_base32.md R116). -/
def charValues : List Byte → Option (List Nat)
  | [] => some []
  | ch :: text =>
    match charValue ch, charValues text with
    | some v, some vs => some (v :: vs)
    | _, _ => none

/-- The loop of R114 over the character values. Leftover bits are dropped at the end
(spec/40_base32.md R118). -/
def decodeFrom (acc nb : Nat) : List Nat → List Byte
  | [] => []
  | v :: vs =>
    let acc' := acc <<< 5 ||| v
    if 8 ≤ nb + 5 then BitVec.ofNat 8 (acc' >>> (nb + 5 - 8)) :: decodeFrom acc' (nb + 5 - 8) vs
    else decodeFrom acc' (nb + 5) vs

/-- `decode(text) -> bytes, error`, with the checks in the order of spec/40_base32.md R114. -/
def base32Decode (text : List Byte) : Except Completion (List Byte) :=
  match charValues (stripPadding text) with
  | none => .error .invalidEncoding
  | some vs =>
    if vs.length % 8 = 1 ∨ vs.length % 8 = 3 ∨ vs.length % 8 = 6 then .error .invalidEncoding
    else if Config.keyMax < 5 * vs.length / 8 then .error .capacityExceeded
    else .ok (decodeFrom 0 0 vs)

/-- B32_ENC (spec/40_base32.md R112). -/
def execB32Enc (s : State) : Result :=
  if s.keyTooLong then raise .capacityExceeded s
  else
    let text := base32Encode s.keyBytes
    complete false { s with text := fillBuffer 128 text, tlen := BitVec.ofNat 8 text.length }

/-- B32_DEC (spec/40_base32.md R114). -/
def execB32Dec (s : State) : Result :=
  if s.textTooLong then raise .capacityExceeded s
  else
    match base32Decode s.textBytes with
    | .error e => raise e s
    | .ok bytes => complete false { s with key := fillBuffer 64 bytes, klen := BitVec.ofNat 7 bytes.length }

end Sys2Proof.Machine
end

