-- ==== Sys2Proof/Machine/Control.lean ====
section
/-! DEFINITION. NOP and the illegal command words (spec/43_control.md R210; spec/60_exceptions.md R231). -/

namespace Sys2Proof.Machine

/-- NOP: a commit with ERR = OK and no result (spec/43_control.md R210). -/
def execNop (s : State) : Result := complete false s

/-- An illegal command word commits IllegalCommand and reads no operand (spec/60_exceptions.md R231). -/
def execIllegal (s : State) : Result := raise .illegalCommand s

end Sys2Proof.Machine
end

