-- ==== Sys2Proof/Machine/Sha1.lean ====
section
/-! DEFINITION. SHA-1 and HMAC-SHA1 (spec/41_hmac_hotp.md R140 to R149). -/

namespace Sys2Proof.Machine

/-- The hash state H0..H4, and the working variables a..e (spec/41_hmac_hotp.md R140, R145). -/
structure HashState where
  a : Word
  b : Word
  c : Word
  d : Word
  e : Word
deriving DecidableEq, Repr

/-- The initial hash value (spec/41_hmac_hotp.md R140). -/
def sha1Init : HashState :=
  ⟨0x67452301, 0xEFCDAB89, 0x98BADCFE, 0x10325476, 0xC3D2E1F0⟩

/-- `ROTL_n(x)` (spec/00_scope.md R11). -/
def rotl (n : Nat) (x : Word) : Word := x <<< n ||| x >>> (32 - n)

/-- Padding: 0x80, the least number of 0x00 that leaves 56 bytes in the last block, and the bit length
(spec/41_hmac_hotp.md R141). -/
def sha1Pad (m : List Byte) : List Byte :=
  m ++ [0x80] ++ List.replicate ((119 - m.length % 64) % 64) 0 ++ be64Bytes (BitVec.ofNat 64 (8 * m.length))

/-- The words W_0..W_15 of a block (spec/41_hmac_hotp.md R142). -/
def blockWords (block : List Byte) : List Word := (List.range 16).map fun t => be32 block (4 * t)

/-- `n` more words of the schedule, on the list of the words so far with the newest first
(spec/41_hmac_hotp.md R143). -/
def extendSchedule : Nat → List Word → List Word
  | 0, ws => ws
  | n + 1, ws =>
    extendSchedule n (rotl 1 (ws.getD 2 0 ^^^ ws.getD 7 0 ^^^ ws.getD 13 0 ^^^ ws.getD 15 0) :: ws)

/-- The schedule W_0..W_79 of a block (spec/41_hmac_hotp.md R143). -/
def schedule (block : List Byte) : List Word := (extendSchedule 64 (blockWords block).reverse).reverse

/-- The round function f_t (spec/41_hmac_hotp.md R144). -/
def roundFn (t : Nat) (b c d : Word) : Word :=
  if t < 20 then (b &&& c) ||| (~~~b &&& d)
  else if t < 40 then b ^^^ c ^^^ d
  else if t < 60 then (b &&& c) ||| (b &&& d) ||| (c &&& d)
  else b ^^^ c ^^^ d

/-- The constant K_t (spec/41_hmac_hotp.md R144). -/
def roundConst (t : Nat) : Word :=
  if t < 20 then 0x5A827999
  else if t < 40 then 0x6ED9EBA1
  else if t < 60 then 0x8F1BBCDC
  else 0xCA62C1D6

/-- One round (spec/41_hmac_hotp.md R145). -/
def sha1Round (h : HashState) (t : Nat) (w : Word) : HashState :=
  ⟨rotl 5 h.a + roundFn t h.b h.c h.d + h.e + roundConst t + w, h.a, rotl 30 h.b, h.c, h.d⟩

/-- The rounds from `t` on, one for each word. -/
def sha1Rounds (t : Nat) : List Word → HashState → HashState
  | [], h => h
  | w :: ws, h => sha1Rounds (t + 1) ws (sha1Round h t w)

/-- Compression of one block (spec/41_hmac_hotp.md R145). -/
def compress (h : HashState) (block : List Byte) : HashState :=
  let r := sha1Rounds 0 (schedule block) h
  ⟨h.a + r.a, h.b + r.b, h.c + r.c, h.d + r.d, h.e + r.e⟩

/-- Compression of `n` blocks of 64 bytes in order (spec/41_hmac_hotp.md R141, R146). -/
def compressBlocks (n : Nat) (bytes : List Byte) (h : HashState) : HashState :=
  (List.range n).foldl (fun h i => compress h ((bytes.drop (64 * i)).take 64)) h

/-- `SHA1(M)`, 20 bytes (spec/41_hmac_hotp.md R146). -/
def sha1 (m : List Byte) : List Byte :=
  let p := sha1Pad m
  let h := compressBlocks (p.length / 64) p sha1Init
  be32Bytes h.a ++ be32Bytes h.b ++ be32Bytes h.c ++ be32Bytes h.d ++ be32Bytes h.e

/-- The key block K0: the key and 0x00 up to 64 bytes (spec/41_hmac_hotp.md R147). -/
def keyBlock (key : List Byte) : List Byte := key ++ List.replicate (64 - key.length) 0

/-- `HMAC_SHA1(K, m)` for a key of at most 64 bytes (spec/41_hmac_hotp.md R148). -/
def hmacSha1 (key m : List Byte) : List Byte :=
  let k0 := keyBlock key
  sha1 (k0.map (· ^^^ 0x5C) ++ sha1 (k0.map (· ^^^ 0x36) ++ m))

end Sys2Proof.Machine
end

