-- ==== Sys2Proof/Machine/Hotp.lean ====
section
/-! DEFINITION. Dynamic truncation, code formatting, and the commands HMAC and HOTP
(spec/41_hmac_hotp.md R149 to R157). -/

namespace Sys2Proof.Machine

/-- The HMAC output for a counter: the message is `BE64(counter)` (spec/41_hmac_hotp.md R149). -/
def counterMac (key : List Byte) (counter : DWord) : List Byte := hmacSha1 key (be64Bytes counter)

/-- The offset `o`: the low 4 bits of the last byte (spec/41_hmac_hotp.md R152). -/
def truncOffset (mac : List Byte) : BitVec 4 := (mac.getD 19 0).extractLsb' 0 4

/-- The 31-bit value `p` (spec/41_hmac_hotp.md R152). -/
def truncValue (mac : List Byte) : BitVec 31 := (be32 mac (truncOffset mac).toNat).extractLsb' 0 31

/-- The code value `p mod 10^digits` (spec/41_hmac_hotp.md R153). -/
def codeValue (p : BitVec 31) (digits : Nat) : BitVec 31 := BitVec.ofNat 31 (p.toNat % 10 ^ digits)

/-- `decimal(code, digits)`: ASCII digits, most significant first (spec/41_hmac_hotp.md R154). -/
def codeText (code : BitVec 31) (digits : Nat) : List Byte :=
  (List.range digits).map fun k => BitVec.ofNat 8 (0x30 + code.toNat / 10 ^ (digits - 1 - k) % 10)

/-- The code text of HOTP for a counter, the `T_x` of spec/42_totp.md R185. -/
def hotpText (key : List Byte) (counter : DWord) (digits : Nat) : List Byte :=
  codeText (codeValue (truncValue (counterMac key counter)) digits) digits

/-- The results HOTP writes for a counter (spec/41_hmac_hotp.md R155, the body after the checks). -/
def withHotpResults (counter : DWord) (s : State) : State :=
  let mac := counterMac s.keyBytes counter
  let p := truncValue mac
  let d := s.digits.toNat
  { s with
    digest := fillBuffer 20 mac
    ofs := truncOffset mac
    trunc := p
    code := codeValue p d
    codeTxt := fillBuffer 12 (codeText (codeValue p d) d) }

/-- HMAC (spec/41_hmac_hotp.md R150). -/
def execHmac (s : State) : Result :=
  if s.keyTooLong then raise .capacityExceeded s
  else if s.badAlg then raise .invalidParameters s
  else complete false { s with digest := fillBuffer 20 (counterMac s.keyBytes s.counter) }

/-- HOTP (spec/41_hmac_hotp.md R155). -/
def execHotp (s : State) : Result :=
  if s.keyTooLong then raise .capacityExceeded s
  else if s.badAlg || s.badDigits then raise .invalidParameters s
  else complete false (withHotpResults s.counter s)

end Sys2Proof.Machine
end

