-- ==== Sys2Proof/Machine/Totp.lean ====
section
/-! DEFINITION. The time-step counter, the drift window, and the commands TSTEP, TOTP and VERIFY
(spec/42_totp.md). -/

namespace Sys2Proof.Machine

/-- `counter(TIME, STEP) = floor(TIME / STEP)` for a legal time and step (spec/42_totp.md R180). -/
def State.timeCounter (s : State) : DWord := BitVec.ofNat 64 (s.time.toNat / s.stepReg.toNat)

/-- The members `c + k`, k = -W..W, that are not below zero (spec/42_totp.md R183, R184). -/
def windowCounters (c w : Nat) : List Nat :=
  ((List.range (2 * w + 1)).filter fun j => decide (w ≤ c + j)).map fun j => c + j - w

/-- The byte comparison of spec/42_totp.md R186: every byte is compared, and the differences are ORed. -/
def textDiff : List Byte → List Byte → Byte
  | x :: xs, y :: ys => (x ^^^ y) ||| textDiff xs ys
  | _, _ => 0

/-- The loop of spec/42_totp.md R186 over the window: every member is compared, after a match too. -/
def anyMember (cand key : List Byte) (digits : Nat) : List Nat → Bool
  | [] => false
  | x :: xs =>
    let differs := textDiff cand (hotpText key (BitVec.ofNat 64 x) digits)
    (differs == 0) || anyMember cand key digits xs

/-- The answer of `validate` (spec/42_totp.md R185 to R187). -/
def State.candidateValid (s : State) : Bool :=
  let d := s.digits.toNat
  if s.clen.toNat ≠ d then false
  else anyMember s.candBytes s.keyBytes d (windowCounters s.timeCounter.toNat s.window.toNat)

/-- TSTEP (spec/42_totp.md R181). -/
def execTstep (s : State) : Result :=
  if s.badTimeStep then raise .invalidParameters s
  else complete false { s with counter := s.timeCounter }

/-- TOTP (spec/42_totp.md R182). -/
def execTotp (s : State) : Result :=
  if s.keyTooLong then raise .capacityExceeded s
  else if s.badAlg || s.badDigits || s.badTimeStep then raise .invalidParameters s
  else complete false (withHotpResults s.timeCounter { s with counter := s.timeCounter })

/-- VERIFY (spec/42_totp.md R186). -/
def execVerify (s : State) : Result :=
  if s.keyTooLong || s.candTooLong then raise .capacityExceeded s
  else if s.badAlg || s.badDigits || s.badTimeStep then raise .invalidParameters s
  else complete s.candidateValid { s with counter := s.timeCounter }

end Sys2Proof.Machine
end

