-- ==== Sys2Proof/Machine/Dispatch.lean ====
section
/-! DEFINITION. The meaning of each command: its commit (spec/60_exceptions.md R237; log 3). -/

namespace Sys2Proof.Machine

def exec (i : Instr) (s : State) : Host.Outcome State Fault Refusal :=
  match i with
  | .nop => Sys2Proof.Machine.execNop s
  | .b32Enc => Sys2Proof.Machine.execB32Enc s
  | .b32Dec => Sys2Proof.Machine.execB32Dec s
  | .hmac => Sys2Proof.Machine.execHmac s
  | .tstep => Sys2Proof.Machine.execTstep s
  | .hotp => Sys2Proof.Machine.execHotp s
  | .totp => Sys2Proof.Machine.execTotp s
  | .verify => Sys2Proof.Machine.execVerify s
  | .illegal _ => Sys2Proof.Machine.execIllegal s

end Sys2Proof.Machine
end

