-- ==== Sys2Proof/Machine/Agents.lean ====
section
/-! DEFINITION. Who moves next: the host, the engine, or the reset input (spec/00_scope.md R15;
spec/60_exceptions.md R237, R244; spec/70_reset_and_hazards.md R270). -/

namespace Sys2Proof.Machine

/-- The engine's turn: the running command commits. An IDLE engine does nothing
(spec/60_exceptions.md R237). -/
def engineMove (s : State) : Result :=
  match s.phase with
  | .idle => .next s
  | .busy op => exec op s

/-- One host access. While rst_n is low the host must not access the block
(spec/70_reset_and_hazards.md R270; log 6). -/
def hostMove (a : BusAccess) (s : State) : Result :=
  if s.rstLow then .refused .accessDuringReset else .next (busAccess a s)

/-- rst_n falls. An access that it cuts has no effect, and its response is a free value
(spec/70_reset_and_hazards.md R270, R271; log 5). -/
def assertReset (cut : Bool) (s : State) : State :=
  let r := { resetBlock s with rstLow := true }
  if cut then
    respond ⟨(Config.cutResponse s.drawn).1, (Config.cutResponse s.drawn).2⟩ { r with drawn := s.drawn + 1 }
  else r

/-- rst_n rises: the block is ready at the first access (spec/70_reset_and_hazards.md R272). -/
def releaseReset (s : State) : State := { s with rstLow := false }

/-- What one event does. -/
def eventMove (e : Event) (s : State) : Result :=
  match e with
  | .access a => hostMove a s
  | .engineTurn => engineMove s
  | .resetAssert cut => .next (assertReset cut s)
  | .resetRelease => .next (releaseReset s)

/-- The next event of the inbox happens. When none is left the engine moves, so a running command
commits in the end (spec/60_exceptions.md R237, weak fairness; log 1). -/
def nextMove (s : State) : Result :=
  match s.inbox with
  | [] => engineMove s
  | e :: rest => eventMove e { s with inbox := rest }

/-- The command word of a row, started as a CMD write starts it, with the engine's turn next (log 2). -/
def placeCommand (nbits w : Nat) (s : State) : State :=
  match decodeTableWord nbits w with
  | none => s
  | some op => { start op s with inbox := .engineTurn :: s.inbox, rstLow := false }

end Sys2Proof.Machine
end

