-- ==== Sys2Proof/Machine/Step.lean ====
section
/-! DEFINITION. One step of the block, and how a command word is placed for the next step. -/

namespace Sys2Proof.Machine

/-- One step: one event in the total order of spec/60_exceptions.md R244 (log 1). -/
def step (s : State) : Host.Outcome State Fault Refusal := nextMove s

/-- The state whose next step commits the command of the word `w` (log 2). -/
def State.withFetchWord (s : State) (nbits w : Nat) : State := placeCommand nbits w s

end Sys2Proof.Machine
end

