-- ==== Sys2Proof/Machine/HostProgram.lean ====
section
/-! DEFINITION. The notation of host programs and its expansions, as lists of events
(spec/30_encoding.md R96 to R99). -/

namespace Sys2Proof.Machine

/-- `offset(reg)` (spec/30_encoding.md R97; spec/20_memory.md R63). `reserved` is no name of the notation;
the first reserved offset stands for it. -/
def Reg.offset : Reg → BitVec 12
  | .id => 0x000
  | .ctrl => 0x004
  | .status => 0x008
  | .cmd => 0x00C
  | .cfg => 0x010
  | .stepReg => 0x014
  | .timeLo => 0x018
  | .timeHi => 0x01C
  | .cntLo => 0x020
  | .cntHi => 0x024
  | .klen => 0x028
  | .tlen => 0x02C
  | .clen => 0x030
  | .trunc => 0x034
  | .code => 0x038
  | .ofs => 0x03C
  | .codeTxt k => BitVec.ofNat 12 (0x040 + 4 * k.val)
  | .cand k => BitVec.ofNat 12 (0x050 + 4 * k.val)
  | .digest k => BitVec.ofNat 12 (0x060 + 4 * k.val)
  | .key k => BitVec.ofNat 12 (0x100 + 4 * k.val)
  | .text k => BitVec.ofNat 12 (0x200 + 4 * k.val)
  | .reserved => 0x04C

/-- `wr` to a hex offset: `(W, addr, value, 0b1111)` (spec/30_encoding.md R97). -/
def wrAt (addr : BitVec 12) (value : Word) : Event := .access ⟨.write, addr, value, 0b1111⟩

/-- `wr <reg>, <value32>` (spec/30_encoding.md R97). -/
def wr (r : Reg) (value : Word) : Event := wrAt r.offset value

/-- `rd <reg>` (spec/30_encoding.md R97). The data and strobe fields of a read play no part. -/
def rd (r : Reg) : Event := .access ⟨.read, r.offset, 0, 0b1111⟩

/-- `cmd <MNEMONIC>` (spec/30_encoding.md R98). -/
def cmd (op : Instr) : Event := wr .cmd (encode op)

/-- `wait`, a polling loop that ended after `polls` reads of STATUS (spec/30_encoding.md R98; log 14). -/
def wait (polls : Nat) : List Event := List.replicate polls (rd .status)

/-- The words of a byte string, packed little-endian with 0 for missing bytes, written from `base` on. -/
def loadWords (base : Nat) (bytes : List Byte) : List Event :=
  (List.range ((bytes.length + 3) / 4)).map fun k =>
    wrAt (BitVec.ofNat 12 (base + 4 * k))
      (packLanes (bytes.getD (4 * k) 0) (bytes.getD (4 * k + 1) 0) (bytes.getD (4 * k + 2) 0)
        (bytes.getD (4 * k + 3) 0))

/-- `ldkey <bytes>` (spec/30_encoding.md R98). -/
def ldkey (bytes : List Byte) : List Event :=
  loadWords 0x100 bytes ++ [wr .klen (BitVec.ofNat 32 bytes.length)]

/-- `ldtext "<s>"` (spec/30_encoding.md R98). -/
def ldtext (text : List Byte) : List Event :=
  loadWords 0x200 text ++ [wr .tlen (BitVec.ofNat 32 text.length)]

/-- `ldcand "<s>"` (spec/30_encoding.md R98). -/
def ldcand (text : List Byte) : List Event :=
  loadWords 0x050 text ++ [wr .clen (BitVec.ofNat 32 text.length)]

/-- `ldtime <t>` (spec/30_encoding.md R98). -/
def ldtime (t : DWord) : List Event := [wr .timeLo (loWord t), wr .timeHi (hiWord t)]

/-- `ldcnt <c>` (spec/30_encoding.md R98). -/
def ldcnt (c : DWord) : List Event := [wr .cntLo (loWord c), wr .cntHi (hiWord c)]

/-- `ldcfg d, a, w` (spec/30_encoding.md R98). -/
def ldcfg (d a w : Word) : List Event := [wr .cfg (w <<< 8 ||| a <<< 4 ||| d)]

end Sys2Proof.Machine
end

