-- ==== Sys2Proof/Safety.lean ====
section
/-! DEFINITION. The terms in which the claims about the block are written: its reset values, its invariant,
what a command reads and writes, the operand registers of the window, and bit strings. -/

namespace Sys2Proof.Machine

/-- Every register and buffer at its value of spec/10_state.md R51. -/
structure State.AtReset (s : State) : Prop where
  phase : s.phase = .idle
  ie : s.ie = false
  done : s.done = false
  valid : s.valid = false
  covr : s.covr = false
  wign : s.wign = false
  err : s.err = .ok
  digits : s.digits = 6
  alg : s.alg = 0
  window : s.window = 1
  stepReg : s.stepReg = 30
  time : s.time = 0
  counter : s.counter = 0
  key : ∀ i : Fin 64, s.key[i] = 0
  klen : s.klen = 0
  text : ∀ i : Fin 128, s.text[i] = 0
  tlen : s.tlen = 0
  cand : ∀ i : Fin 12, s.cand[i] = 0
  clen : s.clen = 0
  digest : ∀ i : Fin 20, s.digest[i] = 0
  codeTxt : ∀ i : Fin 12, s.codeTxt[i] = 0
  trunc : s.trunc = 0
  ofs : s.ofs = 0
  code : s.code = 0

/-- CODE and CODE_TXT belong to TRUNC for some legal code length, or all three are at reset
(spec/41_hmac_hotp.md R153, R154; spec/10_state.md R45 to R47). -/
abbrev State.CodeAgrees (s : State) : Prop :=
  (s.trunc = 0 ∧ s.code = 0 ∧ s.codeTxt = fillBuffer 12 []) ∨
    ∃ d ∈ List.range 11, d ≠ 0 ∧ s.code.toNat = s.trunc.toNat % 10 ^ d ∧
      s.codeTxt = fillBuffer 12 (codeText s.code d)

/-- The invariant of the block. While BUSY, DONE, VALID and ERR are 0 (spec/60_exceptions.md R238); VALID
means that the last command ended with ERR = OK (spec/10_state.md R29); the running command is well formed
(spec/30_encoding.md R91); the code registers agree; and while rst_n is low everything is at reset, so no
secret is held (spec/70_reset_and_hazards.md R271). -/
structure State.Consistent (s : State) : Prop where
  busyQuiet : s.busy = true → s.done = false ∧ s.valid = false ∧ s.err = .ok
  validOk : s.valid = true → s.err = .ok
  running : ∀ op, s.phase = .busy op → op.WellFormed
  code : s.CodeAgrees
  held : s.rstLow = true → s.AtReset

/-- The result column of spec/10_state.md R48: `t` differs from `s` in STATUS and in the results of the
command at most. -/
def OnlyResults (op : Instr) (s t : State) : Prop :=
  match op with
  | .nop => t = commit t.err t.valid s
  | .b32Enc => t = commit t.err t.valid { s with text := t.text, tlen := t.tlen }
  | .b32Dec => t = commit t.err t.valid { s with key := t.key, klen := t.klen }
  | .hmac => t = commit t.err t.valid { s with digest := t.digest }
  | .tstep => t = commit t.err t.valid { s with counter := t.counter }
  | .hotp =>
    t = commit t.err t.valid
      { s with digest := t.digest, ofs := t.ofs, trunc := t.trunc, code := t.code, codeTxt := t.codeTxt }
  | .totp =>
    t = commit t.err t.valid
      { s with
        counter := t.counter, digest := t.digest, ofs := t.ofs, trunc := t.trunc, code := t.code
        codeTxt := t.codeTxt }
  | .verify => t = commit t.err t.valid { s with counter := t.counter }
  | .illegal _ => t = commit t.err t.valid s

/-- The operand column of spec/10_state.md R48: `s` and `t` agree on what the command reads. Of KEY, TEXT
and CAND only the bytes below the length count (R41 to R43). -/
def SameOperands (op : Instr) (s t : State) : Prop :=
  match op with
  | .nop => True
  | .b32Enc => s.klen = t.klen ∧ s.keyBytes = t.keyBytes
  | .b32Dec => s.tlen = t.tlen ∧ s.textBytes = t.textBytes
  | .hmac => s.alg = t.alg ∧ s.klen = t.klen ∧ s.keyBytes = t.keyBytes ∧ s.counter = t.counter
  | .tstep => s.stepReg = t.stepReg ∧ s.time = t.time
  | .hotp =>
    s.alg = t.alg ∧ s.digits = t.digits ∧ s.klen = t.klen ∧ s.keyBytes = t.keyBytes ∧ s.counter = t.counter
  | .totp =>
    s.alg = t.alg ∧ s.digits = t.digits ∧ s.klen = t.klen ∧ s.keyBytes = t.keyBytes ∧
      s.stepReg = t.stepReg ∧ s.time = t.time
  | .verify =>
    s.alg = t.alg ∧ s.digits = t.digits ∧ s.window = t.window ∧ s.klen = t.klen ∧
      s.keyBytes = t.keyBytes ∧ s.stepReg = t.stepReg ∧ s.time = t.time ∧ s.clen = t.clen ∧
      s.candBytes = t.candBytes
  | .illegal _ => True

/-- `s` and `t` agree on the result column of spec/10_state.md R48. -/
def SameResults (op : Instr) (s t : State) : Prop :=
  match op with
  | .nop => True
  | .b32Enc => s.text = t.text ∧ s.tlen = t.tlen
  | .b32Dec => s.key = t.key ∧ s.klen = t.klen
  | .hmac => s.digest = t.digest
  | .tstep => s.counter = t.counter
  | .hotp =>
    s.digest = t.digest ∧ s.ofs = t.ofs ∧ s.trunc = t.trunc ∧ s.code = t.code ∧ s.codeTxt = t.codeTxt
  | .totp =>
    s.counter = t.counter ∧ s.digest = t.digest ∧ s.ofs = t.ofs ∧ s.trunc = t.trunc ∧ s.code = t.code ∧
      s.codeTxt = t.codeTxt
  | .verify => s.counter = t.counter
  | .illegal _ => True

/-- The offsets of the operand registers: CFG, STEP, TIME_LO, TIME_HI, CNT_LO, CNT_HI, KLEN, TLEN, CLEN,
CAND0..2, KEY0..15 and TEXT0..31 (spec/10_state.md R31; spec/20_memory.md R63). -/
def operandOffset (addr : BitVec 12) : Bool :=
  addr.toNat % 4 == 0 &&
    ((0x010 ≤ addr.toNat && addr.toNat ≤ 0x030) || (0x050 ≤ addr.toNat && addr.toNat ≤ 0x058) ||
      (0x100 ≤ addr.toNat && addr.toNat ≤ 0x13C) || (0x200 ≤ addr.toNat && addr.toNat ≤ 0x27C))

/-- The offsets a write does not change: the read-only registers ID, TRUNC, CODE, OFS, CODE_TXT0..2 and
DIGEST0..4, and the reserved offsets (spec/20_memory.md R63, R68, R69). -/
def ignoredOffset (addr : BitVec 12) : Bool :=
  addr.toNat % 4 == 0 && !operandOffset addr && addr != 0x004 && addr != 0x008 && addr != 0x00C

/-- The defined bits of an operand register (spec/10_state.md R34 to R43). -/
def definedBits (addr : BitVec 12) : Word :=
  if addr = 0x010 then 0x0000FF3F
  else if addr = 0x028 then 0x0000007F
  else if addr = 0x02C then 0x000000FF
  else if addr = 0x030 then 0x0000000F
  else 0xFFFFFFFF

/-- A full-word write of `v` at `addr`, as a bus access (spec/30_encoding.md R96). -/
def writeAccess (addr : BitVec 12) (v : Word) : BusAccess := ⟨.write, addr, v, 0b1111⟩

/-- The access is a soft reset: a CTRL write with bit 1 = 1 (spec/10_state.md R25). -/
def softResets (a : BusAccess) : Bool :=
  a.dir == .write && a.addr == 0x004 && a.strb == 0b1111 && a.data.getLsbD 1

/-- Bit `i` of a byte string, the most significant bit of the first byte first, 0 past the end. -/
def bitOf (bytes : List Byte) (i : Nat) : Bool := (bytes.getD (i / 8) 0).getMsbD (i % 8)

/-- The value of the `j`-th group of five bits of a byte string, zero-filled at the end
(spec/40_base32.md R113). -/
def bitGroup (bytes : List Byte) (j : Nat) : Nat :=
  16 * (bitOf bytes (5 * j)).toNat + 8 * (bitOf bytes (5 * j + 1)).toNat +
    4 * (bitOf bytes (5 * j + 2)).toNat + 2 * (bitOf bytes (5 * j + 3)).toNat +
    (bitOf bytes (5 * j + 4)).toNat

/-- Bit `i` of a string of 5-bit values, the most significant bit of the first value first. -/
def valueBit (values : List Nat) (i : Nat) : Bool := (values.getD (i / 5) 0).testBit (4 - i % 5)

/-- The key block K0 of spec/41_hmac_hotp.md R147, byte by byte, with every byte XORed with `x`. -/
def State.paddedKey (s : State) (x : Byte) : List Byte :=
  List.ofFn fun i : Fin 64 => (if i.val < s.klen.toNat then s.key[i] else 0) ^^^ x

/-- The HMAC of a counter under the key in KEY, as spec/41_hmac_hotp.md R147 to R149 write it. -/
def State.macOf (s : State) (counter : DWord) : List Byte :=
  sha1 (s.paddedKey 0x5C ++
    sha1 (s.paddedKey 0x36 ++ List.ofFn fun k : Fin 8 => (counter >>> (56 - 8 * k.val)).setWidth 8))

/-- CFG.ALG and CFG.DIGITS are legal for HOTP (spec/60_exceptions.md R232). -/
abbrev State.LegalConfig (s : State) : Prop := s.alg = 0 ∧ 1 ≤ s.digits.toNat ∧ s.digits.toNat ≤ 10

/-- `legal_time_step()` (spec/42_totp.md R180). -/
abbrev State.LegalTimeStep (s : State) : Prop := s.stepReg ≠ 0 ∧ s.time.toNat < 2 ^ 63

/-- The candidate matches the counter `x` (spec/42_totp.md R185): its length is the code length, and its
bytes are those that HOTP, run with COUNTER = `x`, writes to CODE_TXT. -/
def State.MatchesAt (s : State) (x : DWord) : Prop :=
  s.clen.toNat = s.digits.toNat ∧
    ∃ t, exec .hotp { s with counter := x } = .next t ∧ t.err = .ok ∧
      ∀ i : Fin 12, i.val < s.digits.toNat → s.cand[i] = t.codeTxt[i]

/-- The candidate matches a member of the window (spec/42_totp.md R183 to R185). -/
def State.Matches (s : State) : Prop :=
  ∃ k : Int, -(s.window.toNat : Int) ≤ k ∧ k ≤ s.window.toNat ∧
    0 ≤ ((s.time.toNat / s.stepReg.toNat : Nat) : Int) + k ∧
    s.MatchesAt (BitVec.ofInt 64 (((s.time.toNat / s.stepReg.toNat : Nat) : Int) + k))

/-- A length register that the command reads exceeds its buffer (spec/60_exceptions.md R234). -/
def LengthTooBig (op : Instr) (s : State) : Prop :=
  match op with
  | .b32Enc => 64 < s.klen.toNat
  | .b32Dec => 128 < s.tlen.toNat
  | .hmac => 64 < s.klen.toNat
  | .hotp => 64 < s.klen.toNat
  | .totp => 64 < s.klen.toNat
  | .verify => 64 < s.klen.toNat ∨ 12 < s.clen.toNat
  | .nop => False
  | .tstep => False
  | .illegal _ => False

/-- A parameter that the command reads is illegal (spec/60_exceptions.md R232). -/
def BadParameter (op : Instr) (s : State) : Prop :=
  match op with
  | .hmac => s.alg ≠ 0
  | .tstep => ¬ s.LegalTimeStep
  | .hotp => ¬ s.LegalConfig
  | .totp => ¬ s.LegalConfig ∨ ¬ s.LegalTimeStep
  | .verify => ¬ s.LegalConfig ∨ ¬ s.LegalTimeStep
  | .nop => False
  | .b32Enc => False
  | .b32Dec => False
  | .illegal _ => False

/-- `chars` is the text without the `=` at its end (spec/40_base32.md R115). -/
def StrippedText (text chars : List Byte) : Prop :=
  (∃ r, text = chars ++ List.replicate r 0x3D) ∧ chars.getLast? ≠ some 0x3D

/-- `val(ch)` is defined: the byte is in 'A'..'Z', 'a'..'z' or '2'..'7' (spec/40_base32.md R111). -/
abbrev InAlphabet (ch : Byte) : Prop :=
  0x41 ≤ ch.toNat ∧ ch.toNat ≤ 0x5A ∨ 0x61 ≤ ch.toNat ∧ ch.toNat ≤ 0x7A ∨ 0x32 ≤ ch.toNat ∧ ch.toNat ≤ 0x37

/-- `val(ch)` is `v` (spec/40_base32.md R111). -/
abbrev HasValue (ch : Byte) (v : Nat) : Prop :=
  0x41 ≤ ch.toNat ∧ ch.toNat ≤ 0x5A ∧ v = ch.toNat - 0x41 ∨
    0x61 ≤ ch.toNat ∧ ch.toNat ≤ 0x7A ∧ v = ch.toNat - 0x61 ∨
    0x32 ≤ ch.toNat ∧ ch.toNat ≤ 0x37 ∧ v = ch.toNat - 0x32 + 26

/-- Some character is outside the Base32 alphabet (spec/40_base32.md R111, R116). -/
def BadCharacter (chars : List Byte) : Prop := ∃ ch ∈ chars, ¬ InAlphabet ch

/-- The stripped length is the length of no encoding (spec/40_base32.md R117). -/
abbrev BadLength (chars : List Byte) : Prop :=
  chars.length % 8 = 1 ∨ chars.length % 8 = 3 ∨ chars.length % 8 = 6

/-- The lowercase form of an ASCII letter; every other byte is left as it is. -/
def lowerCase (ch : Byte) : Byte := if 0x41 ≤ ch.toNat ∧ ch.toNat ≤ 0x5A then ch + 0x20 else ch

/-- The engine is the one to move and it runs `op`: the step is the commit of `op`. -/
def State.Commits (s : State) (op : Instr) : Prop :=
  s.phase = .busy op ∧ (s.inbox = [] ∨ ∃ rest, s.inbox = .engineTurn :: rest)

/-- The next event is a reset: the input rst_n falls, or a soft reset is written. -/
def State.ResetsNext (s : State) : Prop :=
  ∃ e rest, s.inbox = e :: rest ∧
    ((∃ cut, e = .resetAssert cut) ∨ ∃ a, e = .access a ∧ softResets a = true)

end Sys2Proof.Machine
end

