-- ==== Sys2Proof/Certificates/Slice0/Obligations.lean ====
section
/-! DEFINITION. The statements for the provers. Each docstring names the rule it formalises. -/

open Sys2Proof Sys2Proof.Machine

/-! ### Encoding and decoding -/

/-- Words written out from the table of R92, as the bus delivers their lanes, and two illegal ones. -/
def Obligations.ListedWordsDecodeToTheirCommands : Prop :=
  decode [0x00, 0x00, 0x00, 0x00] = .ok .nop ∧
  decode [0x01, 0x00, 0x00, 0x00] = .ok .b32Enc ∧
  decode [0x02, 0x00, 0x00, 0x00] = .ok .b32Dec ∧
  decode [0x03, 0x00, 0x00, 0x00] = .ok .hmac ∧
  decode [0x04, 0x00, 0x00, 0x00] = .ok .tstep ∧
  decode [0x05, 0x00, 0x00, 0x00] = .ok .hotp ∧
  decode [0x06, 0x00, 0x00, 0x00] = .ok .totp ∧
  decode [0x07, 0x00, 0x00, 0x00] = .ok .verify ∧
  decode [0x08, 0x00, 0x00, 0x00] = .ok (.illegal 0x00000008) ∧
  decode [0x03, 0x00, 0x00, 0x80] = .ok (.illegal 0x80000003)

/-- R92, R93: each legal command is selected by its whole word, and every other word is illegal. -/
def Obligations.EachCommandIsSelectedByItsWholeWord : Prop :=
  ∀ w : Word,
    (decodeWord w = .nop ↔ w = 0x00000000) ∧
    (decodeWord w = .b32Enc ↔ w = 0x00000001) ∧
    (decodeWord w = .b32Dec ↔ w = 0x00000002) ∧
    (decodeWord w = .hmac ↔ w = 0x00000003) ∧
    (decodeWord w = .tstep ↔ w = 0x00000004) ∧
    (decodeWord w = .hotp ↔ w = 0x00000005) ∧
    (decodeWord w = .totp ↔ w = 0x00000006) ∧
    (decodeWord w = .verify ↔ w = 0x00000007) ∧
    (decodeWord w = .illegal w ↔ w.extractLsb' 4 28 ≠ 0 ∨ 8 ≤ (w.extractLsb' 0 4).toNat)

/-- R91: decoding is total and gives exactly one well-formed command for every word. -/
def Obligations.EveryWordDecodesToExactlyOneCommand : Prop :=
  ∀ w : Word, ∃ i : Instr, decodeWord w = i ∧ i.WellFormed ∧ encode i = w ∧
    ∀ j : Instr, j.WellFormed → encode j = w → j = i

/-- Decode and encode agree on every well-formed command, through the byte lanes of the bus. -/
def Obligations.DecodeOfEncodeGivesTheCommandBack : Prop :=
  ∀ i : Instr, i.WellFormed → decode (encodeBytes i) = .ok i

/-! ### The step -/

/-- R237: when the engine has its turn, the step is `exec` of the running command, with the event taken
from the inbox; an IDLE engine's turn changes nothing else. The inbox, and the engine's turn when it is
empty, are the model's choice (log 1). -/
def Obligations.StepOfTheEngineRunsTheCommand : Prop :=
  ∀ (s : State) (rest : List Event),
    (∀ op, s.phase = .busy op → s.inbox = .engineTurn :: rest → step s = exec op { s with inbox := rest }) ∧
    (∀ op, s.phase = .busy op → s.inbox = [] → step s = exec op s) ∧
    (s.phase = .idle → s.inbox = .engineTurn :: rest → step s = .next { s with inbox := rest }) ∧
    (s.phase = .idle → s.inbox = [] → step s = .next s)

/-- A placed command word is decoded, started, and run by the next step. How a word is placed is the
model's choice (log 2). -/
def Obligations.PlacedWordRunsInTheNextStep : Prop :=
  ∀ (s : State) (i : Instr), i.WellFormed →
    decodeTableWord 32 (encode i).toNat = some i ∧
    step (s.withFetchWord 32 (encode i).toNat) = exec i (start i { s with rstLow := false })

/-- R62: a host access is one step, and completes with its answer; answering changes nothing but the held
response. The statements below about an access say what `busAccess`, `busRead` and `busWrite` do. The inbox
and the response field are the model's choice (logs 1 and 4). -/
def Obligations.StepOfTheHostIsItsAccess : Prop :=
  (∀ (s : State) (a : BusAccess) (rest : List Event),
    s.rstLow = false → s.inbox = .access a :: rest →
    step s = .next (busAccess a { s with inbox := rest }) ∧
      (busAccess a { s with inbox := rest }).inbox = rest ∧
      ∃ r, (busAccess a { s with inbox := rest }).response = some r) ∧
  ∀ (r : Response) (s : State), respond r s = { s with response := some r }

/-- R238: the start of a command by a CMD write at IDLE. -/
def Obligations.CmdWriteStartsTheDecodedCommand : Prop :=
  ∀ (s : State) (w : Word), s.busy = false →
    ∃ t, busWrite 0x00C 0b1111 w s = respond ⟨false, none⟩ t ∧ t.irq = false ∧ t.busy = true ∧
      t = { s with phase := .busy (decodeWord w), done := false, valid := false, err := .ok }

/-- R30: a CMD write while BUSY sets COVR and does nothing else, and COVR is cleared only by writing 1 to
STATUS bit 3 or by a reset. That events come from the inbox is the model's choice (log 1). -/
def Obligations.CmdWriteWhileBusyOnlySetsCovr : Prop :=
  (∀ (s : State) (w : Word), s.busy = true →
    busWrite 0x00C 0b1111 w s = respond ⟨false, none⟩ { s with covr := true }) ∧
  ∀ s t : State, step s = .next t → s.covr = true → t.covr = false →
    s.ResetsNext ∨
      ∃ v rest, s.inbox = .access (writeAccess 0x008 v) :: rest ∧ v.getLsbD 3 = true

/-- R31: a write to an operand register while BUSY sets WIGN and does nothing else, and WIGN is cleared only
by writing 1 to STATUS bit 4 or by a reset. That events come from the inbox is the model's choice
(log 1). -/
def Obligations.OperandWriteWhileBusyOnlySetsWign : Prop :=
  (∀ (s : State) (addr : BitVec 12) (v : Word), operandOffset addr = true → s.busy = true →
    busWrite addr 0b1111 v s = respond ⟨false, none⟩ { s with wign := true }) ∧
  ∀ s t : State, step s = .next t → s.wign = true → t.wign = false →
    s.ResetsNext ∨
      ∃ v rest, s.inbox = .access (writeAccess 0x008 v) :: rest ∧ v.getLsbD 4 = true

/-- R66, R67: a misaligned access, or a write with a strobe missing, gets the error response and changes
nothing; a misaligned read answers 0, and an aligned read a full word, whatever its strobes. -/
def Obligations.BadAccessIsRefusedWithoutEffect : Prop :=
  ∀ (s : State) (a : BusAccess),
    (a.dir = .write → (a.addr.toNat % 4 ≠ 0 ∨ a.strb ≠ 0b1111) → busAccess a s = respond ⟨true, none⟩ s) ∧
    (a.dir = .read → a.addr.toNat % 4 ≠ 0 → busAccess a s = respond ⟨true, some 0⟩ s) ∧
    (a.dir = .read → a.addr.toNat % 4 = 0 → ∃ v : Word, busAccess a s = respond ⟨false, some v⟩ s)

/-- R71, R73: an aligned read answers without error and changes nothing, while BUSY too, whatever the data
and strobe fields hold; a second read of the same offset answers the same. -/
def Obligations.ReadHasNoSideEffect : Prop :=
  ∀ (s : State) (addr : BitVec 12), addr.toNat % 4 = 0 →
    ∃ v : Word, ∀ (d : Word) (strb : BitVec 4),
      busAccess ⟨.read, addr, d, strb⟩ s = respond ⟨false, some v⟩ s ∧
      ∀ (d' : Word) (strb' : BitVec 4),
        busAccess ⟨.read, addr, d', strb'⟩ (busAccess ⟨.read, addr, d, strb⟩ s) = respond ⟨false, some v⟩ s

/-- R212: what a read of each register but STATUS and the buffers returns, by its offset. -/
def Obligations.ReadReturnsTheRegister : Prop :=
  ∀ s : State,
    busRead 0x000 s = respond ⟨false, some 0x2FA00100⟩ s ∧
    busRead 0x004 s = respond ⟨false, some (if s.ie then 1 else 0)⟩ s ∧
    busRead 0x00C s = respond ⟨false, some 0⟩ s ∧
    busRead 0x014 s = respond ⟨false, some s.stepReg⟩ s ∧
    busRead 0x018 s = respond ⟨false, some (BitVec.ofNat 32 (s.time.toNat % 2 ^ 32))⟩ s ∧
    busRead 0x01C s = respond ⟨false, some (BitVec.ofNat 32 (s.time.toNat / 2 ^ 32))⟩ s ∧
    busRead 0x020 s = respond ⟨false, some (BitVec.ofNat 32 (s.counter.toNat % 2 ^ 32))⟩ s ∧
    busRead 0x024 s = respond ⟨false, some (BitVec.ofNat 32 (s.counter.toNat / 2 ^ 32))⟩ s ∧
    busRead 0x010 s =
      respond ⟨false, some (BitVec.ofNat 32 (s.window.toNat * 256 + s.alg.toNat * 16 + s.digits.toNat))⟩ s ∧
    busRead 0x028 s = respond ⟨false, some (BitVec.ofNat 32 s.klen.toNat)⟩ s ∧
    busRead 0x02C s = respond ⟨false, some (BitVec.ofNat 32 s.tlen.toNat)⟩ s ∧
    busRead 0x030 s = respond ⟨false, some (BitVec.ofNat 32 s.clen.toNat)⟩ s ∧
    busRead 0x034 s = respond ⟨false, some (BitVec.ofNat 32 s.trunc.toNat)⟩ s ∧
    busRead 0x038 s = respond ⟨false, some (BitVec.ofNat 32 s.code.toNat)⟩ s ∧
    busRead 0x03C s = respond ⟨false, some (BitVec.ofNat 32 s.ofs.toNat)⟩ s

/-- R26, R32, R49: the bits of STATUS as a read returns them, with BUSY the engine phase and ERR the number
of the completion code. -/
def Obligations.StatusReadsBitByBit : Prop :=
  ∀ s : State, ∃ v : Word, busRead 0x008 s = respond ⟨false, some v⟩ s ∧
    v.toNat = s.busy.toNat + 2 * s.done.toNat + 4 * s.valid.toNat + 8 * s.covr.toNat + 16 * s.wign.toNat +
      256 * (match s.err with
        | .ok => 0
        | .invalidEncoding => 1
        | .invalidParameters => 2
        | .illegalCommand => 3
        | .capacityExceeded => 4) ∧
    (s.busy = true ↔ s.phase ≠ .idle)

/-- R214: a STATUS write clears DONE, and so irq, COVR and WIGN by their bits and changes nothing else,
while BUSY too. -/
def Obligations.StatusWriteClearsByBit : Prop :=
  ∀ (s : State) (v : Word), ∃ t, busWrite 0x008 0b1111 v s = respond ⟨false, none⟩ t ∧
    t = { s with
      done := if v.getLsbD 1 then false else s.done
      covr := if v.getLsbD 3 then false else s.covr
      wign := if v.getLsbD 4 then false else s.wign } ∧
    (v.getLsbD 1 = true → t.irq = false)

/-- R68, R69: a write to a reserved offset or a read-only register changes nothing and is no error; a
reserved offset and CMD read 0. -/
def Obligations.ReservedAndReadOnlyIgnoreWrites : Prop :=
  (∀ (s : State) (addr : BitVec 12) (v : Word), ignoredOffset addr = true →
    busWrite addr 0b1111 v s = respond ⟨false, none⟩ s) ∧
  (∀ (s : State) (addr : BitVec 12), addr.toNat % 4 = 0 →
    (addr.toNat = 0x04C ∨ addr.toNat = 0x05C ∨ (0x074 ≤ addr.toNat ∧ addr.toNat ≤ 0x0FC) ∨
      (0x140 ≤ addr.toNat ∧ addr.toNat ≤ 0x1FC) ∨ 0x280 ≤ addr.toNat) →
    busRead addr s = respond ⟨false, some 0⟩ s) ∧
  ∀ s : State, busRead 0x00C s = respond ⟨false, some 0⟩ s

/-- R211: at IDLE an operand register stores its defined bits, and no other offset of the window reads
differently afterwards. -/
def Obligations.OperandWriteReadsBackAndNothingElseChanges : Prop :=
  ∀ (s : State) (addr : BitVec 12) (v : Word), operandOffset addr = true → s.busy = false →
    ∃ t, busWrite addr 0b1111 v s = respond ⟨false, none⟩ t ∧ t.phase = s.phase ∧
      busRead addr t = respond ⟨false, some (v &&& definedBits addr)⟩ t ∧
      ∀ other : BitVec 12, other.toNat % 4 = 0 → other ≠ addr →
        ∃ x : Word, busRead other s = respond ⟨false, some x⟩ s ∧ busRead other t = respond ⟨false, some x⟩ t

/-- R64: a write to KEYk, TEXTk or CANDk stores the four lanes of the word in bytes 4k..4k+3, lane 0 first,
and leaves every other byte of the buffer as it was. -/
def Obligations.BufferWordHoldsItsFourLanes : Prop :=
  (∀ (s : State) (k : Fin 16) (v : Word), s.busy = false →
    ∀ i : Fin 64, (busWrite (BitVec.ofNat 12 (0x100 + 4 * k.val)) 0b1111 v s).key[i] =
      if i.val / 4 = k.val then (v >>> (8 * (i.val % 4))).setWidth 8 else s.key[i]) ∧
  (∀ (s : State) (k : Fin 32) (v : Word), s.busy = false →
    ∀ i : Fin 128, (busWrite (BitVec.ofNat 12 (0x200 + 4 * k.val)) 0b1111 v s).text[i] =
      if i.val / 4 = k.val then (v >>> (8 * (i.val % 4))).setWidth 8 else s.text[i]) ∧
  (∀ (s : State) (k : Fin 3) (v : Word), s.busy = false →
    ∀ i : Fin 12, (busWrite (BitVec.ofNat 12 (0x050 + 4 * k.val)) 0b1111 v s).cand[i] =
      if i.val / 4 = k.val then (v >>> (8 * (i.val % 4))).setWidth 8 else s.cand[i])

/-- R64: a read of a buffer word gives its four bytes, byte 4k in bits 7:0. -/
def Obligations.BufferWordReadsItsFourBytes : Prop :=
  ∀ s : State,
    (∀ k : Fin 16, ∃ v, busRead (BitVec.ofNat 12 (0x100 + 4 * k.val)) s = respond ⟨false, some v⟩ s ∧
      ∀ j : Fin 4, (v >>> (8 * j.val)).setWidth 8 = s.key.toList.getD (4 * k.val + j.val) 0) ∧
    (∀ k : Fin 32, ∃ v, busRead (BitVec.ofNat 12 (0x200 + 4 * k.val)) s = respond ⟨false, some v⟩ s ∧
      ∀ j : Fin 4, (v >>> (8 * j.val)).setWidth 8 = s.text.toList.getD (4 * k.val + j.val) 0) ∧
    (∀ k : Fin 3, ∃ v, busRead (BitVec.ofNat 12 (0x050 + 4 * k.val)) s = respond ⟨false, some v⟩ s ∧
      ∀ j : Fin 4, (v >>> (8 * j.val)).setWidth 8 = s.cand.toList.getD (4 * k.val + j.val) 0) ∧
    (∀ k : Fin 3, ∃ v, busRead (BitVec.ofNat 12 (0x040 + 4 * k.val)) s = respond ⟨false, some v⟩ s ∧
      ∀ j : Fin 4, (v >>> (8 * j.val)).setWidth 8 = s.codeTxt.toList.getD (4 * k.val + j.val) 0) ∧
    (∀ k : Fin 5, ∃ v, busRead (BitVec.ofNat 12 (0x060 + 4 * k.val)) s = respond ⟨false, some v⟩ s ∧
      ∀ j : Fin 4, (v >>> (8 * j.val)).setWidth 8 = s.digest.toList.getD (4 * k.val + j.val) 0)

/-- R63: every named register is found at its offset, and an offset that names a register is that
register's. -/
def Obligations.AddressMapAndOffsetsAgree : Prop :=
  (∀ r : Reg, r ≠ .reserved → regAt r.offset = r ∧ misaligned r.offset = false) ∧
  ∀ addr : BitVec 12, regAt addr ≠ .reserved → misaligned addr = false → (regAt addr).offset = addr

/-! ### Reset, control and the interrupt -/

/-- R213: a CTRL write with bit 1 = 1, while BUSY too, puts every piece of state at its reset value and
abandons a running command; the write completes without error. -/
def Obligations.SoftResetRestoresEveryRegister : Prop :=
  ∀ (s : State) (v : Word), v.getLsbD 1 = true →
    ∃ t, busWrite 0x004 0b1111 v s = respond ⟨false, none⟩ t ∧ t.AtReset ∧ t.irq = false

/-- R271: the step in which rst_n falls puts every piece of state at its reset value and abandons a running
command; after it rises the block has the same values. The inbox (log 1), and that the level of rst_n is held
beside the registers (log 8), are the model's choice. -/
def Obligations.HardwareResetRestoresEveryRegister : Prop :=
  (∀ (s : State) (cut : Bool) (rest : List Event), s.inbox = .resetAssert cut :: rest →
    ∃ t, step s = .next t ∧ t.AtReset ∧ t.irq = false ∧ t.rstLow = true ∧ t.inbox = rest) ∧
  ∀ (s : State) (rest : List Event), s.AtReset → s.inbox = .resetRelease :: rest →
    ∃ t, step s = .next t ∧ t.AtReset ∧ t.rstLow = false ∧ t.inbox = rest

/-- R51: the reset state, and every state after a soft or a hardware reset, has every listed value. -/
def Obligations.EveryResetGivesTheListedValues : Prop :=
  ∀ t : State, (t = State.reset ∨ ∃ s, t = softReset s ∨ ∃ cut, t = assertReset cut s) →
    t.AtReset ∧ t.irq = false ∧ t.statusWord = 0x00000000 ∧ t.cfgWord = 0x00000106 ∧
      readReg .id t = 0x2FA00100 ∧ readReg .ctrl t = 0x00000000 ∧ readReg .stepReg t = 0x0000001E

/-- R24: a CTRL write with bit 1 = 0 sets IE from bit 0 and changes nothing else, while BUSY too, and irq is
the AND of IE and DONE. -/
def Obligations.CtrlWriteSetsOnlyTheInterruptEnable : Prop :=
  ∀ (s : State) (v : Word), v.getLsbD 1 = false →
    ∃ t, busWrite 0x004 0b1111 v s = respond ⟨false, none⟩ t ∧ t = { s with ie := v.getLsbD 0 } ∧
      (t.irq = true ↔ v.getLsbD 0 = true ∧ s.done = true)

/-- R242: irq is IE and DONE; a commit raises it whatever its code when IE = 1, and setting IE while
DONE = 1 raises it at once. -/
def Obligations.InterruptIsEnableAndDone : Prop :=
  (∀ (op : Instr) (s : State), ∃ t, exec op s = .next t ∧ t.done = true ∧ (t.irq = true ↔ s.ie = true)) ∧
  (∀ (s : State) (v : Word), v.getLsbD 0 = true → v.getLsbD 1 = false → s.done = true →
    (busWrite 0x004 0b1111 v s).irq = true) ∧
  ∀ s : State, s.irq = true ↔ s.ie = true ∧ s.done = true

/-- R243: each of the four events clears irq, and COVR and WIGN do not drive it. -/
def Obligations.InterruptIsClearedByEachListedEvent : Prop :=
  ∀ s : State,
    (∀ v : Word, v.getLsbD 1 = true → (busWrite 0x008 0b1111 v s).irq = false) ∧
    (∀ w : Word, s.busy = false → (busWrite 0x00C 0b1111 w s).irq = false) ∧
    (∀ v : Word, v.getLsbD 0 = false → (busWrite 0x004 0b1111 v s).irq = false) ∧
    (∀ v : Word, v.getLsbD 1 = true → (busWrite 0x004 0b1111 v s).irq = false) ∧
    (∀ cut, (assertReset cut s).irq = false) ∧
    ∀ c w : Bool, { s with covr := c, wign := w }.irq = s.irq

/-- R27: BUSY becomes 1 only by a CMD write at IDLE, and 0 only by a commit or a reset. That events come from
the inbox is the model's choice (log 1). -/
def Obligations.BusyBeginsAtACmdWriteAndEndsAtACommitOrReset : Prop :=
  ∀ s t : State, step s = .next t →
    (s.busy = false → t.busy = true → ∃ w rest, s.inbox = .access (writeAccess 0x00C w) :: rest) ∧
    (s.busy = true → t.busy = false → s.ResetsNext ∨ ∃ op, s.Commits op)

/-- R28: DONE is set only by a commit, and cleared only by a CMD write at IDLE, by writing 1 to STATUS bit 1,
or by a reset. That events come from the inbox is the model's choice (log 1). -/
def Obligations.DoneIsSetByACommitAndClearedByThreeEvents : Prop :=
  ∀ s t : State, step s = .next t →
    (s.done = false → t.done = true → ∃ op, s.Commits op) ∧
    (s.done = true → t.done = false →
      s.ResetsNext ∨
      (s.busy = false ∧ ∃ w rest, s.inbox = .access (writeAccess 0x00C w) :: rest) ∨
      ∃ v rest, s.inbox = .access (writeAccess 0x008 v) :: rest ∧ v.getLsbD 1 = true)

/-- No step faults; an access while rst_n is low is refused, and nothing else is. The refusal is the model's
choice (log 6). -/
def Obligations.OnlyAnAccessDuringResetIsRefused : Prop :=
  ∀ s : State,
    (s.rstLow = true → (∃ a rest, s.inbox = .access a :: rest) → step s = .refused .accessDuringReset) ∧
    (¬ (s.rstLow = true ∧ ∃ a rest, s.inbox = .access a :: rest) → ∃ t, step s = .next t)

/-! ### The commands: completion, results, errors and frames -/

/-- R210: NOP commits OK and writes nothing but STATUS, and raises irq when IE = 1; its word starts it at
IDLE and is dropped with COVR = 1 while BUSY. -/
def Obligations.NopCommitsOk : Prop :=
  ∀ s : State,
    (∃ t, exec .nop s = .next t ∧ t = { s with phase := .idle, done := true, valid := false, err := .ok } ∧
      (s.ie = true → t.irq = true)) ∧
    (s.busy = false → busWrite 0x00C 0b1111 0x00000000 s = respond ⟨false, none⟩ (start .nop s)) ∧
    (s.busy = true → busWrite 0x00C 0b1111 0x00000000 s = respond ⟨false, none⟩ { s with covr := true })

/-- R231: a word whose bits 31:4 are not all zero, or whose OP is 8 to 15, commits IllegalCommand whatever
the operands hold, and writes nothing but STATUS. -/
def Obligations.IllegalWordCommitsIllegalCommand : Prop :=
  ∀ (s : State) (w : Word),
    exec (.illegal w) s =
      .next { s with phase := .idle, done := true, valid := false, err := .illegalCommand } ∧
    (w.extractLsb' 4 28 ≠ 0 ∨ 8 ≤ (w.extractLsb' 0 4).toNat →
      exec (decodeWord w) s =
        .next { s with phase := .idle, done := true, valid := false, err := .illegalCommand })

/-- R110, R112, R113: B32_ENC of a key of at most 64 bytes writes for the j-th group of five bits, zero-filled
at the end, the character 'A'..'Z' or '2'..'7' of its value, then 0x00, and the length; a longer KLEN is
CapacityExceeded. -/
def Obligations.Base32EncodeWritesTheBitGroups : Prop :=
  ∀ s : State,
    (s.klen.toNat ≤ 64 →
      ∃ t, exec .b32Enc s = .next t ∧
        t = commit .ok false { s with text := t.text, tlen := t.tlen } ∧
        t.tlen.toNat = (8 * s.klen.toNat + 4) / 5 ∧
        (∀ j : Fin 128, j.val < t.tlen.toNat → ∀ v, v = bitGroup (s.key.toList.take s.klen.toNat) j.val →
          (t.text[j]).toNat = if v < 26 then 0x41 + v else 0x32 + (v - 26)) ∧
        ∀ j : Fin 128, t.tlen.toNat ≤ j.val → t.text[j] = 0) ∧
    (64 < s.klen.toNat → exec .b32Enc s = .next (commit .capacityExceeded false s))

/-- R111, R114 to R119: B32_DEC of a text, by its stripped characters and their values. -/
def Obligations.Base32DecodeFollowsTheChecksInOrder : Prop :=
  ∀ s : State,
    (128 < s.tlen.toNat → exec .b32Dec s = .next (commit .capacityExceeded false s)) ∧
    ∀ chars : List Byte, s.tlen.toNat ≤ 128 → StrippedText (s.text.toList.take s.tlen.toNat) chars →
      (BadCharacter chars → exec .b32Dec s = .next (commit .invalidEncoding false s)) ∧
      (¬ BadCharacter chars → BadLength chars →
        exec .b32Dec s = .next (commit .invalidEncoding false s)) ∧
      (¬ BadCharacter chars → ¬ BadLength chars → 64 < 5 * chars.length / 8 →
        exec .b32Dec s = .next (commit .capacityExceeded false s)) ∧
      ∀ values : List Nat, values.length = chars.length →
        (∀ i < chars.length, HasValue (chars.getD i 0) (values.getD i 0)) →
        ¬ BadLength chars → 5 * chars.length / 8 ≤ 64 →
        ∃ t, exec .b32Dec s = .next t ∧
          t = commit .ok false { s with key := t.key, klen := t.klen } ∧
          t.klen.toNat = 5 * chars.length / 8 ∧
          (∀ j : Fin 64, j.val < t.klen.toNat →
            ∀ b : Fin 8, t.key[j].getMsbD b.val = valueBit values (8 * j.val + b.val)) ∧
          ∀ j : Fin 64, t.klen.toNat ≤ j.val → t.key[j] = 0

/-- R120: encoding and then decoding leaves the key, even if the other registers change in between. -/
def Obligations.Base32RoundTripRestoresTheKey : Prop :=
  ∀ s : State, s.klen.toNat ≤ 64 →
    ∃ t, exec .b32Enc s = .next t ∧ t.err = .ok ∧
      ∀ t' : State, SameOperands .b32Dec t t' →
        ∃ u, exec .b32Dec t' = .next u ∧ u.err = .ok ∧ u.klen = s.klen ∧
          u.key.toList.take u.klen.toNat = s.key.toList.take s.klen.toNat

/-- R121: lowercase text and padded text decode to the same bytes, or fail the same way, as B32_DEC runs and
for a text of any length. -/
def Obligations.Base32DecodeIgnoresCaseAndPadding : Prop :=
  (∀ s s' : State, s.tlen.toNat ≤ 128 → s'.tlen.toNat ≤ 128 →
    (s'.text.toList.take s'.tlen.toNat = (s.text.toList.take s.tlen.toNat).map lowerCase ∨
      ∃ r, s'.text.toList.take s'.tlen.toNat = s.text.toList.take s.tlen.toNat ++ List.replicate r 0x3D) →
    ∃ t t', exec .b32Dec s = .next t ∧ exec .b32Dec s' = .next t' ∧ t'.err = t.err ∧
      (t.err = .ok → t'.key = t.key ∧ t'.klen = t.klen)) ∧
  ∀ (text : List Byte) (r : Nat),
    base32Decode (text.map lowerCase) = base32Decode text ∧
    base32Decode (text ++ List.replicate r 0x3D) = base32Decode text

/-- R140, R141, R146: SHA-1 pads the message, compresses the blocks in order and emits H0..H4 most
significant byte first. -/
def Obligations.Sha1PadsAndCompressesInOrder : Prop :=
  ∀ m : List Byte, ∃ (z : Nat) (p : List Byte) (h : HashState),
    p = m ++ [0x80] ++ List.replicate z 0 ++
      (List.ofFn fun k : Fin 8 => (BitVec.ofNat 64 (8 * m.length) >>> (56 - 8 * k.val)).setWidth 8) ∧
    (m.length + 1 + z) % 64 = 56 ∧ (∀ y < z, (m.length + 1 + y) % 64 ≠ 56) ∧ p.length % 64 = 0 ∧
    h = (List.range (p.length / 64)).foldl (fun h i => compress h ((p.drop (64 * i)).take 64))
      ⟨0x67452301, 0xEFCDAB89, 0x98BADCFE, 0x10325476, 0xC3D2E1F0⟩ ∧
    sha1 m = [h.a, h.b, h.c, h.d, h.e].flatMap
      fun w : Word => [(w >>> 24).setWidth 8, (w >>> 16).setWidth 8, (w >>> 8).setWidth 8, w.setWidth 8]

/-- R142, R143: the message schedule. -/
def Obligations.Sha1ScheduleFollowsItsRecurrence : Prop :=
  ∀ block : List Byte, (schedule block).length = 80 ∧
    (∀ t < 16, (schedule block).getD t 0 =
      block.getD (4 * t) 0 ++ block.getD (4 * t + 1) 0 ++ block.getD (4 * t + 2) 0 ++
        block.getD (4 * t + 3) 0) ∧
    ∀ t, 16 ≤ t → t < 80 → (schedule block).getD t 0 =
      ((schedule block).getD (t - 3) 0 ^^^ (schedule block).getD (t - 8) 0 ^^^
        (schedule block).getD (t - 14) 0 ^^^ (schedule block).getD (t - 16) 0).rotateLeft 1

/-- R144, R145: the eighty rounds of a compression. -/
def Obligations.Sha1CompressionRunsEightyRounds : Prop :=
  ∀ (h : HashState) (block : List Byte), ∃ v : Nat → HashState, v 0 = h ∧
    (∀ t < 80, ∃ f k : Word,
      (t ≤ 19 → f = ((v t).b &&& (v t).c) ||| (~~~(v t).b &&& (v t).d) ∧ k = 0x5A827999) ∧
      (20 ≤ t → t ≤ 39 → f = (v t).b ^^^ (v t).c ^^^ (v t).d ∧ k = 0x6ED9EBA1) ∧
      (40 ≤ t → t ≤ 59 →
        f = ((v t).b &&& (v t).c) ||| ((v t).b &&& (v t).d) ||| ((v t).c &&& (v t).d) ∧ k = 0x8F1BBCDC) ∧
      (60 ≤ t → f = (v t).b ^^^ (v t).c ^^^ (v t).d ∧ k = 0xCA62C1D6) ∧
      v (t + 1) =
        ⟨(v t).a.rotateLeft 5 + f + (v t).e + k + (schedule block).getD t 0, (v t).a,
          (v t).b.rotateLeft 30, (v t).c, (v t).d⟩) ∧
    compress h block =
      ⟨h.a + (v 80).a, h.b + (v 80).b, h.c + (v 80).c, h.d + (v 80).d, h.e + (v 80).e⟩

/-- R150: HMAC writes the HMAC-SHA1 of the counter under KEY[0..KLEN) to DIGEST and nothing else; a long
key is CapacityExceeded, and then a reserved ALG is InvalidParameters. -/
def Obligations.HmacWritesTheDigestOfTheCounter : Prop :=
  ∀ s : State,
    (s.klen.toNat ≤ 64 → s.alg = 0 →
      ∃ t, exec .hmac s = .next t ∧ t = commit .ok false { s with digest := t.digest } ∧
        t.digest.toList = s.macOf s.counter) ∧
    (64 < s.klen.toNat → exec .hmac s = .next (commit .capacityExceeded false s)) ∧
    (s.klen.toNat ≤ 64 → s.alg ≠ 0 → exec .hmac s = .next (commit .invalidParameters false s))

/-- R152 to R155: HOTP writes DIGEST, OFS, TRUNC, CODE and CODE_TXT and nothing else; a long key is
CapacityExceeded, and then an illegal ALG or DIGITS is InvalidParameters. -/
def Obligations.HotpTruncatesAndFormatsTheDigest : Prop :=
  ∀ s : State,
    (s.klen.toNat ≤ 64 → s.LegalConfig →
      ∃ t, exec .hotp s = .next t ∧
        t = commit .ok false
          { s with digest := t.digest, ofs := t.ofs, trunc := t.trunc, code := t.code, codeTxt := t.codeTxt } ∧
        t.digest.toList = s.macOf s.counter ∧
        t.ofs.toNat = (t.digest[19]).toNat % 16 ∧
        t.trunc.toNat =
          ((t.digest.toList.getD t.ofs.toNat 0).toNat * 2 ^ 24 +
            (t.digest.toList.getD (t.ofs.toNat + 1) 0).toNat * 2 ^ 16 +
            (t.digest.toList.getD (t.ofs.toNat + 2) 0).toNat * 2 ^ 8 +
            (t.digest.toList.getD (t.ofs.toNat + 3) 0).toNat) % 2 ^ 31 ∧
        t.code.toNat = t.trunc.toNat % 10 ^ s.digits.toNat ∧
        (∀ k : Fin 12, k.val < s.digits.toNat →
          (t.codeTxt[k]).toNat = 0x30 + t.code.toNat / 10 ^ (s.digits.toNat - 1 - k.val) % 10) ∧
        ∀ k : Fin 12, s.digits.toNat ≤ k.val → t.codeTxt[k] = 0) ∧
    (64 < s.klen.toNat → exec .hotp s = .next (commit .capacityExceeded false s)) ∧
    (s.klen.toNat ≤ 64 → ¬ s.LegalConfig → exec .hotp s = .next (commit .invalidParameters false s))

/-- R153, R154: the code text, read as a decimal number, is the code, and it has `digits` characters. -/
def Obligations.CodeTextReadsAsTheCode : Prop :=
  ∀ (p : BitVec 31) (d : Nat), d ≤ 10 →
    (codeText (codeValue p d) d).length = d ∧
    (codeText (codeValue p d) d).foldl (fun v ch => 10 * v + (ch.toNat - 0x30)) 0 = p.toNat % 10 ^ d

/-- R180, R181: TSTEP writes the floor of TIME / STEP to COUNTER and nothing else; STEP = 0 or a negative
TIME is InvalidParameters. -/
def Obligations.TstepWritesTheFloorOfTimeOverStep : Prop :=
  ∀ s : State,
    (s.stepReg ≠ 0 → s.time.getLsbD 63 = false →
      ∃ t, exec .tstep s = .next t ∧ t = commit .ok false { s with counter := t.counter } ∧
        t.counter.toNat * s.stepReg.toNat ≤ s.time.toNat ∧
        s.time.toNat < (t.counter.toNat + 1) * s.stepReg.toNat ∧ t.counter.toNat < 2 ^ 63) ∧
    (s.stepReg = 0 ∨ s.time.getLsbD 63 = true → exec .tstep s = .next (commit .invalidParameters false s))

/-- R182: TOTP is TSTEP and then HOTP; a long key is CapacityExceeded, and then an illegal parameter is
InvalidParameters. -/
def Obligations.TotpIsTstepThenHotp : Prop :=
  ∀ s : State,
    (s.klen.toNat ≤ 64 → s.LegalConfig → s.LegalTimeStep →
      ∃ u t, exec .tstep s = .next u ∧ exec .hotp u = .next t ∧ exec .totp s = .next t ∧ t.err = .ok ∧
        t.counter.toNat = s.time.toNat / s.stepReg.toNat) ∧
    (64 < s.klen.toNat → exec .totp s = .next (commit .capacityExceeded false s)) ∧
    (s.klen.toNat ≤ 64 → ¬ (s.LegalConfig ∧ s.LegalTimeStep) →
      exec .totp s = .next (commit .invalidParameters false s))

/-- R183 to R186, R189: VERIFY writes COUNTER and VALID and nothing else, and VALID says whether the
candidate is what HOTP writes to CODE_TXT for a member of the window; a long key or candidate is
CapacityExceeded, and then an illegal parameter is InvalidParameters. -/
def Obligations.VerifyAcceptsExactlyTheWindow : Prop :=
  ∀ s : State,
    (s.klen.toNat ≤ 64 → s.clen.toNat ≤ 12 → s.LegalConfig → s.LegalTimeStep →
      ∃ t, exec .verify s = .next t ∧
        t = commit .ok t.valid { s with counter := BitVec.ofNat 64 (s.time.toNat / s.stepReg.toNat) } ∧
        (t.valid = true ↔ s.Matches)) ∧
    (64 < s.klen.toNat ∨ 12 < s.clen.toNat →
      exec .verify s = .next (commit .capacityExceeded false s)) ∧
    (s.klen.toNat ≤ 64 → s.clen.toNat ≤ 12 → ¬ (s.LegalConfig ∧ s.LegalTimeStep) →
      exec .verify s = .next (commit .invalidParameters false s))

/-- R191: the code text that HOTP writes for one step before is accepted when W >= 1; that of two steps before
is rejected when W = 1, unless it is the code text of a member of the window. -/
def Obligations.VerifyToleratesOneStepOfDrift : Prop :=
  ∀ s : State, s.klen.toNat ≤ 64 → s.LegalConfig → s.LegalTimeStep →
    (1 ≤ s.window.toNat → s.stepReg.toNat ≤ s.time.toNat →
      s.MatchesAt (BitVec.ofNat 64 ((s.time.toNat - s.stepReg.toNat) / s.stepReg.toNat)) →
      ∃ t, exec .verify s = .next t ∧ t.err = .ok ∧ t.valid = true) ∧
    (s.window = 1 → 2 * s.stepReg.toNat ≤ s.time.toNat →
      s.MatchesAt (BitVec.ofNat 64 ((s.time.toNat - 2 * s.stepReg.toNat) / s.stepReg.toNat)) →
      ∃ t, exec .verify s = .next t ∧ t.err = .ok ∧
        (t.valid = true ↔
          ∃ j < 3, s.MatchesAt (BitVec.ofNat 64 (s.time.toNat / s.stepReg.toNat - 1 + j))))

/-! ### Errors, results and whole-machine rules -/

/-- R236, R237: every command commits; an error writes ERR, VALID = 0, BUSY = 0 and DONE = 1 and no other
register. -/
def Obligations.EveryCommandCommitsAndErrorsArePrecise : Prop :=
  ∀ (op : Instr) (s : State), ∃ t, exec op s = .next t ∧ t.phase = .idle ∧ t.done = true ∧
    (t.err ≠ .ok →
      t = { s with phase := .idle, done := true, valid := false, err := t.err })

/-- R231 to R235: exactly when each completion code is reported. -/
def Obligations.EachErrorIsReportedExactlyWhenItApplies : Prop :=
  ∀ (op : Instr) (s t : State), exec op s = .next t →
    (t.err = .illegalCommand ↔ ∃ w, op = .illegal w) ∧
    (t.err = .invalidParameters ↔ ¬ LengthTooBig op s ∧ BadParameter op s) ∧
    (t.err = .invalidEncoding ↔
      op = .b32Dec ∧ ¬ LengthTooBig op s ∧
        ∃ chars, StrippedText (s.text.toList.take s.tlen.toNat) chars ∧ (BadCharacter chars ∨ BadLength chars)) ∧
    (t.err = .capacityExceeded ↔
      LengthTooBig op s ∨
        (op = .b32Dec ∧ ∃ chars, StrippedText (s.text.toList.take s.tlen.toNat) chars ∧ ¬ BadCharacter chars ∧
          ¬ BadLength chars ∧ 64 < 5 * chars.length / 8))

/-- R48: a register not in a command's result column keeps its value. -/
def Obligations.CommandsWriteOnlyTheirResultColumn : Prop :=
  ∀ (op : Instr) (s : State), ∃ t, exec op s = .next t ∧ OnlyResults op s t

/-- R157: the results, the code and VALID depend on the operand column alone. -/
def Obligations.ResultsDependOnlyOnTheOperands : Prop :=
  ∀ (op : Instr) (s s' : State), SameOperands op s s' →
    ∃ t t', exec op s = .next t ∧ exec op s' = .next t' ∧ t.err = t'.err ∧ t.valid = t'.valid ∧
      (t.err = .ok → SameResults op t t')

/-- R29: VALID is 1 after a commit exactly when it is a VERIFY commit with ERR = OK whose candidate
matched, and a command's start clears it. -/
def Obligations.ValidIsSetByAMatchedVerifyOnly : Prop :=
  (∀ (op : Instr) (s t : State), exec op s = .next t →
    (t.valid = true ↔ op = .verify ∧ t.err = .ok ∧ s.Matches)) ∧
  ∀ (s : State) (w : Word), s.busy = false → (busWrite 0x00C 0b1111 w s).valid = false

/-- Every step that sets VALID is the commit of a VERIFY. That events come from the inbox is the model's
choice (log 1). -/
def Obligations.OnlyACommitOfVerifySetsValid : Prop :=
  ∀ s t : State, step s = .next t → s.valid = false → t.valid = true → s.Commits .verify

/-- 90 C7, R41: KEY changes only by a commit of B32_DEC, by a write of a KEY word at IDLE, or by a reset. That
events come from the inbox is the model's choice (log 1). -/
def Obligations.KeyChangesOnlyByDecodeHostOrReset : Prop :=
  ∀ s t : State, step s = .next t → t.key ≠ s.key →
    s.Commits .b32Dec ∨ s.ResetsNext ∨
      (s.phase = .idle ∧ ∃ addr v rest, s.inbox = .access (writeAccess addr v) :: rest ∧
        0x100 ≤ addr.toNat ∧ addr.toNat ≤ 0x13C)

/-- R44: only HMAC, HOTP and TOTP write DIGEST; otherwise only a reset changes it. That events come from the
inbox is the model's choice (log 1). -/
def Obligations.DigestIsWrittenByHmacHotpAndTotpOnly : Prop :=
  ∀ s t : State, step s = .next t → t.digest ≠ s.digest →
    s.Commits .hmac ∨ s.Commits .hotp ∨ s.Commits .totp ∨ s.ResetsNext

/-- R247: COUNTER does not advance by itself: it changes only at a commit of TSTEP, TOTP or VERIFY, by a
write of CNT_LO or CNT_HI at IDLE, or by a reset. That events come from the inbox is the model's choice
(log 1). -/
def Obligations.CounterDoesNotAdvanceByItself : Prop :=
  ∀ s t : State, step s = .next t → t.counter ≠ s.counter →
    s.Commits .tstep ∨ s.Commits .totp ∨ s.Commits .verify ∨ s.ResetsNext ∨
      (s.phase = .idle ∧ ∃ v rest, s.inbox = .access (writeAccess 0x020 v) :: rest ∨
        s.inbox = .access (writeAccess 0x024 v) :: rest)

/-- R247: TIME is changed by the host alone, by a write of TIME_LO or TIME_HI at IDLE, or by a reset. That
events come from the inbox is the model's choice (log 1). -/
def Obligations.TimeIsWrittenByTheHostAlone : Prop :=
  ∀ s t : State, step s = .next t → t.time ≠ s.time →
    s.ResetsNext ∨
      (s.phase = .idle ∧ ∃ v rest, s.inbox = .access (writeAccess 0x018 v) :: rest ∨
        s.inbox = .access (writeAccess 0x01C v) :: rest)

/-- R72, R79: whatever the host does between the start and the commit, short of a reset, the commit has the
results of the operands at the start; the host's accesses are felt only in IE, COVR, WIGN and the
response. The inbox and the response field are the model's choice (logs 1 and 4). -/
def Obligations.CommandSeesTheOperandsOfItsStart : Prop :=
  ∀ (s : State) (op : Instr) (accesses : List BusAccess) (last rest : List Event),
    s.phase = .busy op → s.rstLow = false → (∀ a ∈ accesses, softResets a = false) →
    s.inbox = accesses.map .access ++ last → (last = [] ∧ rest = [] ∨ last = .engineTurn :: rest) →
    ∃ (u t : State) (ie covr wign : Bool) (response : Option Response),
      exec op s = .next u ∧ Sys2Proof.core.run (accesses.length + 1) s = .next t ∧
        t = { u with
              ie := ie, covr := covr, wign := wign, response := response, inbox := rest }

/-- R98: `ldkey` loads the key and its length and leaves the other bytes of KEY. The inbox is the model's
choice (log 1). -/
def Obligations.LdkeyLoadsTheKey : Prop :=
  ∀ (s : State) (bytes : List Byte) (rest : List Event),
    bytes.length ≤ 64 → s.busy = false → s.rstLow = false → s.inbox = ldkey bytes ++ rest →
    ∃ t, Sys2Proof.core.run (ldkey bytes).length s = .next t ∧ t.inbox = rest ∧
      t.key.toList.take t.klen.toNat = bytes ∧
      t.klen.toNat = bytes.length ∧
      ∀ i : Fin 64, 4 * ((bytes.length + 3) / 4) ≤ i.val → t.key[i] = s.key[i]

/-- R65, R98: `ldtime` and `ldcnt` load both words of a 64-bit register and leave every other register. The
inbox and the response field are the model's choice (logs 1 and 4). -/
def Obligations.LdtimeAndLdcntLoadBothWords : Prop :=
  ∀ (s : State) (d : DWord) (rest : List Event), s.busy = false → s.rstLow = false →
    (s.inbox = ldtime d ++ rest →
      Sys2Proof.core.run 2 s =
        .next { s with time := d, inbox := rest, response := some ⟨false, none⟩ }) ∧
    (s.inbox = ldcnt d ++ rest →
      Sys2Proof.core.run 2 s =
        .next { s with counter := d, inbox := rest, response := some ⟨false, none⟩ })

/-- The invariant holds right after reset. -/
def Obligations.ResetStateIsConsistent : Prop := State.reset.Consistent

/-- Every step keeps the invariant. -/
def Obligations.EveryStepKeepsTheStateConsistent : Prop :=
  ∀ s t : State, s.Consistent → step s = .next t → t.Consistent
end

