-- ==== Sys2Proof/Laws/Bytes.lean ====
section
/-! SUPPORT. Lanes, buffers and byte strings: what each operation gives, byte by byte. -/

namespace Sys2Proof.Machine

@[simp] theorem fillBuffer_getElem (n : Nat) (bytes : List Byte) (i : Nat) (h : i < n) :
    (fillBuffer n bytes)[i] = bytes.getD i 0 := by simp [fillBuffer]

theorem byteAt_getElem {n : Nat} (buf : Vector Byte n) (i : Nat) (h : i < n) : byteAt buf i = buf[i] := by
  simp [byteAt, List.getD, h]

theorem byteAt_fillBuffer (n : Nat) (bytes : List Byte) (i : Nat) (h : i < n) :
    byteAt (fillBuffer n bytes) i = bytes.getD i 0 := by
  rw [byteAt_getElem _ _ h, fillBuffer_getElem]

@[simp] theorem setBufferWord_getElem {n : Nat} (buf : Vector Byte n) (k : Nat) (w : Word) (i : Nat)
    (h : i < n) : (setBufferWord buf k w)[i] = if i / 4 = k then lane w (i % 4) else buf[i] := by
  simp [setBufferWord]

@[simp] theorem takeBytes_length {n : Nat} (buf : Vector Byte n) (len : Nat) :
    (takeBytes buf len).length = min len n := by simp [takeBytes]

theorem takeBytes_getElem {n : Nat} (buf : Vector Byte n) (len i : Nat) (h : i < len) (hn : i < n) :
    (takeBytes buf len).getD i 0 = buf[i] := by
  simp [takeBytes, List.getD, h, hn]

/-- Filling a buffer with a string that fits, and taking its length back. -/
theorem takeBytes_fillBuffer (n : Nat) (bytes : List Byte) (h : bytes.length ≤ n) :
    takeBytes (fillBuffer n bytes) bytes.length = bytes := by
  apply List.ext_getElem
  · simp [h]
  · intro i h1 h2
    simp [takeBytes, List.getD, h2]

theorem fillBuffer_toList (n : Nat) (bytes : List Byte) (h : bytes.length = n) :
    (fillBuffer n bytes).toList = bytes := by
  apply List.ext_getElem
  · simp [h]
  · intro i h1 h2
    simp [List.getD, h2]

theorem lane_eq (w : Word) (j : Nat) : lane w j = (w >>> (8 * j)).setWidth 8 := by
  apply BitVec.eq_of_getLsbD_eq
  intro i hi
  simp [lane, hi]

/-- Bit `i` of a packed word is bit `i % 8` of its byte `i / 8`. -/
theorem packLanes_getLsbD (b0 b1 b2 b3 : Byte) (i : Nat) (h : i < 32) :
    (packLanes b0 b1 b2 b3).getLsbD i = ([b0, b1, b2, b3].getD (i / 8) 0).getLsbD (i % 8) := by
  have hq : i / 8 = 0 ∨ i / 8 = 1 ∨ i / 8 = 2 ∨ i / 8 = 3 := by omega
  rcases hq with hq | hq | hq | hq <;> rw [hq] <;> simp only [packLanes, BitVec.getLsbD_append]
  · rw [if_pos (by omega), Nat.mod_eq_of_lt (by omega)]; rfl
  · rw [if_neg (by omega), if_pos (by omega), show i % 8 = i - 8 by omega]; rfl
  · rw [if_neg (by omega), if_neg (by omega), if_pos (by omega), show i % 8 = i - 8 - 8 by omega]; rfl
  · rw [if_neg (by omega), if_neg (by omega), if_neg (by omega), show i % 8 = i - 8 - 8 - 8 by omega]; rfl

theorem lane_getLsbD (w : Word) (j i : Nat) (h : i < 8) : (lane w j).getLsbD i = w.getLsbD (8 * j + i) := by
  simp [lane, h]

/-- The lanes of a packed word are its bytes. -/
theorem lane_packLanes (b0 b1 b2 b3 : Byte) (j : Nat) (h : j < 4) :
    lane (packLanes b0 b1 b2 b3) j = [b0, b1, b2, b3].getD j 0 := by
  apply BitVec.eq_of_getLsbD_eq
  intro i hi
  rw [lane_getLsbD _ _ _ hi, packLanes_getLsbD _ _ _ _ _ (by omega), show (8 * j + i) / 8 = j by omega,
    show (8 * j + i) % 8 = i by omega]

/-- Packing the lanes of a word gives the word. -/
theorem packLanes_lane (w : Word) : packLanes (lane w 0) (lane w 1) (lane w 2) (lane w 3) = w := by
  apply BitVec.eq_of_getLsbD_eq
  intro i hi
  rw [packLanes_getLsbD _ _ _ _ _ hi]
  have hq : i / 8 = 0 ∨ i / 8 = 1 ∨ i / 8 = 2 ∨ i / 8 = 3 := by omega
  rcases hq with hq | hq | hq | hq <;> rw [hq] <;>
    simp only [List.getD_cons_zero, List.getD_cons_succ] <;>
    rw [lane_getLsbD _ _ _ (by omega)] <;> congr 1 <;> omega

/-- Lane `j` of word `k` of a buffer is byte `4k + j`. -/
theorem lane_bufferWord {n : Nat} (buf : Vector Byte n) (k j : Nat) (h : j < 4) :
    lane (bufferWord buf k) j = byteAt buf (4 * k + j) := by
  have hj : j = 0 ∨ j = 1 ∨ j = 2 ∨ j = 3 := by omega
  rw [bufferWord, lane_packLanes _ _ _ _ _ h]
  rcases hj with rfl | rfl | rfl | rfl <;> rfl

/-- Two words with the same lanes are the same. -/
theorem eq_of_lanes {v w : Word} (h : ∀ j < 4, lane v j = lane w j) : v = w := by
  rw [← packLanes_lane v, ← packLanes_lane w, h 0 (by decide), h 1 (by decide), h 2 (by decide),
    h 3 (by decide)]

/-- A buffer word after a write of a word of the same buffer. -/
theorem bufferWord_setBufferWord {n : Nat} (buf : Vector Byte n) (k k' : Nat) (w : Word)
    (h : 4 * k' + 4 ≤ n) :
    bufferWord (setBufferWord buf k w) k' = if k' = k then w else bufferWord buf k' := by
  apply eq_of_lanes
  intro j hj
  rw [lane_bufferWord _ _ _ hj, byteAt_getElem _ _ (by omega), setBufferWord_getElem,
    show (4 * k' + j) / 4 = k' by omega, show (4 * k' + j) % 4 = j by omega]
  split
  · rfl
  · rw [lane_bufferWord _ _ _ hj, byteAt_getElem _ _ (by omega)]

theorem append_getLsbD (hi lo : Word) (i : Nat) :
    (hi ++ lo : DWord).getLsbD i = if i < 32 then lo.getLsbD i else hi.getLsbD (i - 32) :=
  BitVec.getLsbD_append

@[simp] theorem loWord_append (hi lo : Word) : loWord (hi ++ lo) = lo := by
  apply BitVec.eq_of_getLsbD_eq
  intro i h
  rw [loWord, BitVec.getLsbD_extractLsb', append_getLsbD, if_pos (by omega)]
  simp [h]

@[simp] theorem hiWord_append (hi lo : Word) : hiWord (hi ++ lo) = hi := by
  apply BitVec.eq_of_getLsbD_eq
  intro i h
  rw [hiWord, BitVec.getLsbD_extractLsb', append_getLsbD, if_neg (by omega)]
  simp [h]

@[simp] theorem loWord_withLo (d : DWord) (w : Word) : loWord (withLo d w) = w := loWord_append _ _
@[simp] theorem hiWord_withLo (d : DWord) (w : Word) : hiWord (withLo d w) = hiWord d := hiWord_append _ _
@[simp] theorem loWord_withHi (d : DWord) (w : Word) : loWord (withHi d w) = loWord d := loWord_append _ _
@[simp] theorem hiWord_withHi (d : DWord) (w : Word) : hiWord (withHi d w) = w := hiWord_append _ _

@[simp] theorem be64Bytes_length (c : DWord) : (be64Bytes c).length = 8 := by simp [be64Bytes]

/-- The bytes of `BE64`, written with shifts. -/
theorem be64Bytes_eq (c : DWord) :
    be64Bytes c = List.ofFn fun k : Fin 8 => (c >>> (56 - 8 * k.val)).setWidth 8 := by
  apply List.ext_getElem
  · simp
  · intro i h1 h2
    simp only [be64Bytes, List.getElem_map, List.getElem_range, List.getElem_ofFn]
    apply BitVec.eq_of_getLsbD_eq
    intro j hj
    simp [hj]

end Sys2Proof.Machine
end

