-- ==== Sys2Proof/Laws/Base32.lean ====
section
/-! SUPPORT. The Base32 codec: the alphabet and its inverse, the stripped text, the lengths, and the two
loops read as numbers. -/

namespace Sys2Proof.Machine

/-! ### The alphabet -/

theorem charValue_alpha : ∀ v < 32, charValue (alpha v) = some v := by decide

theorem alpha_ne_pad : ∀ v < 32, alpha v ≠ 0x3D := by decide

theorem charValue_pad : charValue 0x3D = none := by decide

theorem alpha_toNat : ∀ v < 32, (alpha v).toNat = if v < 26 then 0x41 + v else 0x32 + (v - 26) := by decide

theorem charValue_eq_some {ch : Byte} {v : Nat} : charValue ch = some v ↔ HasValue ch v := by
  simp only [charValue, HasValue]
  split
  · simp only [Option.some.injEq]; omega
  · split
    · simp only [Option.some.injEq]; omega
    · split
      · simp only [Option.some.injEq]; omega
      · simp only [reduceCtorEq, false_iff]; omega

theorem charValue_eq_none {ch : Byte} : charValue ch = none ↔ ¬ InAlphabet ch := by
  simp only [charValue, InAlphabet]
  split
  · simp only [reduceCtorEq, false_iff]; omega
  · split
    · simp only [reduceCtorEq, false_iff]; omega
    · split
      · simp only [reduceCtorEq, false_iff]; omega
      · simp only [true_iff]; omega

theorem charValue_lt {ch : Byte} {v : Nat} (h : charValue ch = some v) : v < 32 := by
  simp only [charValue] at h
  repeat' split at h
  all_goals first | (cases h; omega) | cases h

/-! ### The stripped text -/

theorem stripPadding_stripped (text : List Byte) : StrippedText text (stripPadding text) := by
  constructor
  · refine ⟨(text.reverse.takeWhile fun ch => ch == 0x3D).length, ?_⟩
    have h := List.takeWhile_append_dropWhile (p := fun ch : Byte => ch == 0x3D) (l := text.reverse)
    have hrep : (text.reverse.takeWhile fun ch => ch == 0x3D) =
        List.replicate (text.reverse.takeWhile fun ch => ch == 0x3D).length 0x3D :=
      List.eq_replicate_of_mem fun b hb => by simpa using List.mem_takeWhile_imp hb
    have := congrArg List.reverse h
    rw [List.reverse_append, List.reverse_reverse] at this
    rw [hrep, List.reverse_replicate] at this
    exact this.symm
  · rw [stripPadding, List.getLast?_reverse]
    intro h
    have := List.head?_dropWhile_not (fun ch : Byte => ch == 0x3D) text.reverse
    rw [h] at this
    simp at this

/-- The stripped text is unique. -/
theorem stripPadding_eq {text chars : List Byte} (h : StrippedText text chars) : stripPadding text = chars := by
  obtain ⟨⟨r, rfl⟩, hl⟩ := h
  rw [stripPadding, List.reverse_append, List.reverse_replicate]
  have hrep : ∀ n (l : List Byte),
      (List.replicate n 0x3D ++ l).dropWhile (fun ch => ch == 0x3D) = l.dropWhile fun ch => ch == 0x3D := by
    intro n l
    induction n with
    | zero => rfl
    | succ n ih => simp [List.replicate_succ]
  rw [hrep]
  cases hc : chars.reverse with
  | nil => simp [List.reverse_eq_nil_iff.mp hc]
  | cons x xs =>
    have hx : x ≠ 0x3D := by
      rintro rfl
      apply hl
      rw [← List.reverse_reverse chars, hc, List.getLast?_reverse]
      rfl
    rw [List.dropWhile_cons, if_neg (by simpa using hx), ← hc, List.reverse_reverse]

/-! ### The character values -/

theorem charValues_eq_some {chars : List Byte} {vs : List Nat} :
    charValues chars = some vs ↔ chars.map charValue = vs.map some := by
  induction chars generalizing vs with
  | nil => cases vs <;> simp [charValues]
  | cons ch chars ih =>
    cases vs with
    | nil =>
      simp only [charValues, List.map_cons, List.map_nil, reduceCtorEq, iff_false]
      split <;> simp
    | cons v vs =>
      simp only [charValues, List.map_cons, List.cons.injEq]
      rw [← ih]
      split
      · next h1 h2 => simp [h1, h2]
      · next h =>
        constructor
        · intro h'; cases h'
        · rintro ⟨h1, h2⟩; exact absurd h2 (h v vs h1)

theorem charValues_eq_none {chars : List Byte} : charValues chars = none ↔ BadCharacter chars := by
  induction chars with
  | nil => simp [charValues, BadCharacter]
  | cons ch chars ih =>
    simp only [BadCharacter, List.mem_cons, exists_eq_or_imp, ← charValue_eq_none] at ih ⊢
    simp only [charValues]
    cases h1 : charValue ch with
    | none => simp
    | some v =>
      rw [← ih]
      cases charValues chars <;> simp

/-- The values of the characters, character by character. -/
theorem charValues_eq_some_iff {chars : List Byte} {vs : List Nat} :
    charValues chars = some vs ↔
      vs.length = chars.length ∧ ∀ i < chars.length, HasValue (chars.getD i 0) (vs.getD i 0) := by
  rw [charValues_eq_some]
  constructor
  · intro h
    have hl : vs.length = chars.length := by simpa using (congrArg List.length h).symm
    refine ⟨hl, fun i hi => charValue_eq_some.mp ?_⟩
    have := congrArg (·[i]?) h
    simpa [hi, hl ▸ hi] using this
  · rintro ⟨hl, h⟩
    apply List.ext_getElem (by simp [hl])
    intro i h1 h2
    have hi : i < chars.length := by simpa using h1
    simpa [hi, hl ▸ hi] using charValue_eq_some.mpr (h i hi)

theorem charValues_length {chars : List Byte} {vs : List Nat} (h : charValues chars = some vs) :
    vs.length = chars.length := by
  have := congrArg List.length (charValues_eq_some.mp h)
  simpa using this.symm

theorem charValues_lt {chars : List Byte} {vs : List Nat} (h : charValues chars = some vs) :
    ∀ v ∈ vs, v < 32 := by
  intro v hv
  have hm : some v ∈ chars.map charValue := by
    rw [charValues_eq_some.mp h]; exact List.mem_map_of_mem hv
  obtain ⟨ch, _, hc⟩ := List.mem_map.mp hm
  exact charValue_lt hc

/-- What the decoder answers, by the stripped text. -/
theorem base32Decode_cases {text chars : List Byte} (h : StrippedText text chars) :
    (BadCharacter chars ∧ base32Decode text = .error .invalidEncoding) ∨
    ∃ vs, charValues chars = some vs ∧ vs.length = chars.length ∧
      ((BadLength chars ∧ base32Decode text = .error .invalidEncoding) ∨
       (¬ BadLength chars ∧ 64 < 5 * chars.length / 8 ∧ base32Decode text = .error .capacityExceeded) ∨
       (¬ BadLength chars ∧ 5 * chars.length / 8 ≤ 64 ∧ base32Decode text = .ok (decodeFrom 0 0 vs))) := by
  rw [base32Decode, stripPadding_eq h]
  cases hv : charValues chars with
  | none => exact .inl ⟨charValues_eq_none.mp hv, rfl⟩
  | some vs =>
    right
    have hl := charValues_length hv
    refine ⟨vs, rfl, hl, ?_⟩
    simp only [hl]
    by_cases hb : BadLength chars
    · exact .inl ⟨hb, by simp [hb]⟩
    · by_cases hc : 64 < 5 * chars.length / 8
      · exact .inr (.inl ⟨hb, hc, by simp only [hb, hc, if_true, if_false]⟩)
      · exact .inr (.inr ⟨hb, by omega, by simp only [hb, hc, if_false]⟩)

/-! ### The lengths of the two loops -/

theorem drain_length (acc nb : Nat) : (drain acc nb).length = nb / 5 := by
  induction nb using Nat.strong_induction_on with
  | _ nb ih =>
    match nb with
    | 0 | 1 | 2 | 3 | 4 => rfl
    | n + 5 => rw [drain, List.length_cons, ih n (by omega)]; omega

theorem encodeFrom_length (bytes : List Byte) (acc nb : Nat) (h : nb < 5) :
    (encodeFrom acc nb bytes).length = (nb + 8 * bytes.length + 4) / 5 := by
  induction bytes generalizing acc nb with
  | nil =>
    simp only [encodeFrom]
    split
    · next h0 => subst h0; simp
    · simp only [List.length_singleton, List.length_nil]; omega
  | cons b bytes ih =>
    simp only [encodeFrom, List.length_append, drain_length, List.length_cons]
    rw [ih _ _ (Nat.mod_lt _ (by decide))]
    omega

/-- The length of an encoding (spec/40_base32.md R113). -/
theorem base32Encode_length (bytes : List Byte) : (base32Encode bytes).length = (8 * bytes.length + 4) / 5 := by
  rw [base32Encode, encodeFrom_length _ _ _ (by decide), Nat.zero_add]

theorem decodeFrom_length (vs : List Nat) (acc nb : Nat) (h : nb < 8) :
    (decodeFrom acc nb vs).length = (nb + 5 * vs.length) / 8 := by
  induction vs generalizing acc nb with
  | nil => simp only [decodeFrom, List.length_nil]; omega
  | cons v vs ih =>
    simp only [decodeFrom]
    split
    · rw [List.length_cons, ih _ _ (by omega), List.length_cons]; omega
    · rw [ih _ _ (by omega), List.length_cons]; omega

/-! ### The two loops, bit by bit -/

/-- Five bits of a bit string, the most significant one first. -/
def groupOf (bits : Nat → Bool) (j : Nat) : Nat :=
  16 * (bits (5 * j)).toNat + 8 * (bits (5 * j + 1)).toNat + 4 * (bits (5 * j + 2)).toNat +
    2 * (bits (5 * j + 3)).toNat + (bits (5 * j + 4)).toNat

theorem bitGroup_eq (bytes : List Byte) (j : Nat) : bitGroup bytes j = groupOf (bitOf bytes) j := rfl

theorem groupOf_lt (bits : Nat → Bool) (j : Nat) : groupOf bits j < 32 := by
  have h : ∀ b : Bool, b.toNat ≤ 1 := by decide
  have h0 := h (bits (5 * j))
  have h1 := h (bits (5 * j + 1))
  have h2 := h (bits (5 * j + 2))
  have h3 := h (bits (5 * j + 3))
  have h4 := h (bits (5 * j + 4))
  unfold groupOf
  omega

theorem groupOf_congr {f g : Nat → Bool} {i j : Nat} (h : ∀ k < 5, f (5 * i + k) = g (5 * j + k)) :
    groupOf f i = groupOf g j := by
  have h0 := h 0 (by decide)
  simp only [Nat.add_zero] at h0
  rw [groupOf, h0, h 1 (by decide), h 2 (by decide), h 3 (by decide), h 4 (by decide), groupOf]

/-- Bit `k` of a group, the most significant one first. -/
theorem testBit_groupOf (bits : Nat → Bool) (j k : Nat) (h : k < 5) :
    (groupOf bits j).testBit (4 - k) = bits (5 * j + k) := by
  have hb : ∀ b0 b1 b2 b3 b4 : Bool, ∀ k < 5,
      (16 * b0.toNat + 8 * b1.toNat + 4 * b2.toNat + 2 * b3.toNat + b4.toNat).testBit (4 - k) =
        [b0, b1, b2, b3, b4].getD k false := by decide
  rw [groupOf, hb _ _ _ _ _ k h]
  have hk : k = 0 ∨ k = 1 ∨ k = 2 ∨ k = 3 ∨ k = 4 := by omega
  rcases hk with rfl | rfl | rfl | rfl | rfl <;> rfl

/-- The low five bits of a shifted number are a group of its bits. -/
theorem shiftRight_mod_32 (n s : Nat) :
    (n >>> s) % 32 = groupOf (fun k => n.testBit (s + 4 - k)) 0 := by
  simp only [groupOf, Nat.mul_zero, Nat.zero_add, Nat.toNat_testBit, Nat.sub_zero, Nat.shiftRight_eq_div_pow]
  rw [show s + 4 - 1 = s + 3 by omega, show s + 4 - 2 = s + 2 by omega, show s + 4 - 3 = s + 1 by omega,
    show s + 4 - 4 = s by omega]
  simp only [pow_add, ← Nat.div_div_eq_div_mul]
  omega

/-- The bits still to be written: the low `nb` bits of `acc`, then the bits of `more`. -/
def pendingBits (acc nb : Nat) (more : Nat → Bool) (i : Nat) : Bool :=
  if i < nb then acc.testBit (nb - 1 - i) else more (i - nb)

/-- Five pending bits of the accumulator. -/
theorem groupOf_pendingBits (acc nb : Nat) (more : Nat → Bool) (j : Nat) (h : 5 * j + 5 ≤ nb) :
    groupOf (pendingBits acc nb more) j = (acc >>> (nb - 5 - 5 * j)) % 32 := by
  rw [shiftRight_mod_32]
  apply groupOf_congr
  intro k hk
  rw [pendingBits, if_pos (by omega)]
  congr 1
  omega

theorem bitOf_cons (b : Byte) (bytes : List Byte) (i : Nat) :
    bitOf (b :: bytes) i = if i < 8 then b.toNat.testBit (7 - i) else bitOf bytes (i - 8) := by
  unfold bitOf
  split
  · next h =>
    rw [Nat.div_eq_of_lt h, Nat.mod_eq_of_lt h, List.getD_cons_zero, BitVec.getMsbD]
    simp [h, BitVec.getLsbD]
  · next h =>
    rw [show i / 8 = (i - 8) / 8 + 1 by omega, List.getD_cons_succ, show i % 8 = (i - 8) % 8 by omega]

/-- Shifting a value of `w` bits into the accumulator moves it there from the front of the bits to come. -/
theorem testBit_shiftIn (acc v w i : Nat) (h : v < 2 ^ w) :
    (acc <<< w ||| v).testBit i = if i < w then v.testBit i else acc.testBit (i - w) := by
  rw [Nat.testBit_or, Nat.testBit_shiftLeft]
  split
  · next hi => simp [Nat.not_le.mpr hi]
  · next hi =>
    have : v.testBit i = false :=
      Nat.testBit_lt_two_pow (lt_of_lt_of_le h (Nat.pow_le_pow_right (by decide) (by omega)))
    simp [this, Nat.not_lt.mp hi]

theorem pendingBits_byte (acc nb : Nat) (b : Byte) (bytes : List Byte) :
    pendingBits acc nb (bitOf (b :: bytes)) = pendingBits (acc <<< 8 ||| b.toNat) (nb + 8) (bitOf bytes) := by
  funext i
  simp only [pendingBits, testBit_shiftIn _ _ 8 _ b.isLt, bitOf_cons]
  by_cases h1 : i < nb
  · rw [if_pos h1, if_pos (by omega), if_neg (by omega)]
    congr 1
    omega
  · by_cases h2 : i < nb + 8
    · rw [if_neg h1, if_pos (by omega), if_pos h2, if_pos (by omega)]
      congr 1
      omega
    · rw [if_neg h1, if_neg (by omega), if_neg h2]
      congr 1

/-- Dropping bits that are already written. -/
theorem pendingBits_add (acc nb n : Nat) (more : Nat → Bool) (i : Nat) :
    pendingBits acc nb more i = pendingBits acc (n + nb) more (n + i) := by
  simp only [pendingBits]
  by_cases h : i < nb
  · rw [if_pos h, if_pos (by omega)]
    congr 1
    omega
  · rw [if_neg h, if_neg (by omega)]
    congr 1
    omega

theorem drain_getD (acc nb j : Nat) (h : j < nb / 5) :
    (drain acc nb).getD j 0 = alpha ((acc >>> (nb - 5 - 5 * j)) % 32) := by
  induction nb using Nat.strong_induction_on generalizing j with
  | _ nb ih =>
    match nb, h with
    | 0, h | 1, h | 2, h | 3, h | 4, h => exact absurd h (by omega)
    | n + 5, h =>
      rw [drain]
      cases j with
      | zero => simp
      | succ j =>
        rw [List.getD_cons_succ, ih n (by omega) j (by omega)]
        congr 3
        omega

/-- Character `j` of an encoding is the character of the `j`-th group of pending bits. -/
theorem encodeFrom_getD (bytes : List Byte) (acc nb j : Nat) (hnb : nb < 5)
    (h : j < (nb + 8 * bytes.length + 4) / 5) :
    (encodeFrom acc nb bytes).getD j 0 = alpha (groupOf (pendingBits acc nb (bitOf bytes)) j) := by
  induction bytes generalizing acc nb j with
  | nil =>
    simp only [List.length_nil] at h
    obtain rfl : j = 0 := by omega
    rw [encodeFrom, if_neg (by omega), List.getD_cons_zero]
    have hs := shiftRight_mod_32 (acc <<< (5 - nb)) 0
    rw [Nat.shiftRight_zero] at hs
    rw [hs]
    congr 1
    apply groupOf_congr
    intro k hk
    simp only [pendingBits, Nat.testBit_shiftLeft, Nat.mul_zero, Nat.zero_add]
    by_cases hk2 : k < nb
    · rw [if_pos hk2, decide_eq_true (by omega), Bool.true_and]
      congr 1
      omega
    · rw [if_neg hk2, decide_eq_false (by omega)]
      simp [bitOf]
  | cons b bytes ih =>
    rw [encodeFrom, pendingBits_byte]
    simp only [List.length_cons] at h
    generalize acc <<< 8 ||| b.toNat = acc'
    rcases Nat.lt_or_ge j ((nb + 8) / 5) with hj | hj
    · rw [groupOf_pendingBits _ _ _ _ (by omega), ← drain_getD _ _ _ hj, List.getD_eq_getElem?_getD,
        List.getElem?_append_left (by rw [drain_length]; exact hj), List.getD_eq_getElem?_getD]
    · rw [List.getD_eq_getElem?_getD, List.getElem?_append_right (by rw [drain_length]; exact hj), drain_length,
        ← List.getD_eq_getElem?_getD, ih _ _ _ (Nat.mod_lt _ (by decide)) (by omega)]
      congr 1
      apply groupOf_congr
      intro k hk
      rw [pendingBits_add _ _ (5 * ((nb + 8) / 5))]
      congr 1 <;> omega

/-- Character `j` of an encoding (spec/40_base32.md R113). -/
theorem base32Encode_getD (bytes : List Byte) (j : Nat) (h : j < (8 * bytes.length + 4) / 5) :
    (base32Encode bytes).getD j 0 = alpha (bitGroup bytes j) := by
  rw [base32Encode, encodeFrom_getD _ _ _ _ (by decide) (by omega), bitGroup_eq]
  rfl

theorem valueBit_cons (v : Nat) (vs : List Nat) (i : Nat) :
    valueBit (v :: vs) i = if i < 5 then v.testBit (4 - i) else valueBit vs (i - 5) := by
  unfold valueBit
  split
  · next h => rw [Nat.div_eq_of_lt h, Nat.mod_eq_of_lt h, List.getD_cons_zero]
  · next h =>
    rw [show i / 5 = (i - 5) / 5 + 1 by omega, List.getD_cons_succ, show i % 5 = (i - 5) % 5 by omega]

theorem pendingBits_value (acc nb v : Nat) (vs : List Nat) (hv : v < 32) :
    pendingBits acc nb (valueBit (v :: vs)) = pendingBits (acc <<< 5 ||| v) (nb + 5) (valueBit vs) := by
  funext i
  simp only [pendingBits, testBit_shiftIn _ _ 5 _ hv, valueBit_cons]
  by_cases h1 : i < nb
  · rw [if_pos h1, if_pos (by omega), if_neg (by omega)]
    congr 1
    omega
  · by_cases h2 : i < nb + 5
    · rw [if_neg h1, if_pos (by omega), if_pos h2, if_pos (by omega)]
      congr 1
      omega
    · rw [if_neg h1, if_neg (by omega), if_neg h2]
      congr 1

/-- Byte `j` of a decoding is the `j`-th group of eight pending bits. -/
theorem decodeFrom_getMsbD (vs : List Nat) (acc nb j b : Nat) (hv : ∀ v ∈ vs, v < 32) (hnb : nb < 8)
    (hj : j < (nb + 5 * vs.length) / 8) (hb : b < 8) :
    ((decodeFrom acc nb vs).getD j 0).getMsbD b = pendingBits acc nb (valueBit vs) (8 * j + b) := by
  induction vs generalizing acc nb j with
  | nil => exact absurd hj (by simp only [List.length_nil]; omega)
  | cons v vs ih =>
    have hv' : ∀ v ∈ vs, v < 32 := fun x hx => hv x (List.mem_cons_of_mem _ hx)
    simp only [List.length_cons] at hj
    rw [decodeFrom, pendingBits_value _ _ _ _ (hv v List.mem_cons_self)]
    generalize acc <<< 5 ||| v = acc'
    split
    · next h8 =>
      cases j with
      | zero =>
        rw [List.getD_cons_zero, pendingBits, if_pos (by omega), BitVec.getMsbD]
        simp only [hb, decide_true, Bool.true_and, BitVec.getLsbD_ofNat, Nat.testBit_shiftRight]
        rw [decide_eq_true (by omega), Bool.true_and]
        congr 1
        omega
      | succ j =>
        rw [List.getD_cons_succ, ih _ _ _ hv' (by omega) (by omega), pendingBits_add _ _ 8]
        congr 1 <;> omega
    · next h8 => exact ih _ _ _ hv' (by omega) (by omega)

/-! ### Case and padding -/

theorem charValue_lowerCase : ∀ ch : Byte, charValue (lowerCase ch) = charValue ch := by decide

theorem lowerCase_pad : ∀ ch : Byte, lowerCase ch = 0x3D ↔ ch = 0x3D := by decide

end Sys2Proof.Machine
end

