-- ==== Sys2Proof/Laws/Decode.lean ====
section
/-! SUPPORT. The decoder by the value of the word, and what a well-formed illegal command is. -/

namespace Sys2Proof

theorem highBits_eq_zero_iff (w : Word) : w.extractLsb' 4 28 = 0 ↔ w.toNat < 16 := by
  rw [← BitVec.toNat_inj, show (0 : BitVec 28).toNat = 0 from rfl]
  simp only [BitVec.extractLsb'_toNat, Nat.shiftRight_eq_div_pow]
  have := w.isLt
  omega

theorem opField_toNat (w : Word) : (w.extractLsb' 0 4).toNat = w.toNat % 16 := by
  simp only [BitVec.extractLsb'_toNat, Nat.shiftRight_zero, Nat.reducePow]

/-- The illegal words are the words from 8 up. -/
theorem illegalWord_iff (w : Word) : illegalWord w = true ↔ 8 ≤ w.toNat := by
  have h := highBits_eq_zero_iff w
  simp only [illegalWord, Bool.or_eq_true, bne_iff_ne, ne_eq, h, decide_eq_true_eq, opField_toNat]
  omega

theorem decodeWord_illegal (w : Word) (h : 8 ≤ w.toNat) : decodeWord w = .illegal w := by
  unfold decodeWord
  split
  · rfl
  next hz =>
    have hlt := (highBits_eq_zero_iff w).mp (by simpa using hz)
    rw [opField_toNat, Nat.mod_eq_of_lt hlt]
    split <;> first | rfl | omega

/-- The decoder by the value of the word (spec/30_encoding.md R91, R92). -/
theorem decodeWord_cases (w : Word) :
    (w = 0 ∧ decodeWord w = .nop) ∨ (w = 1 ∧ decodeWord w = .b32Enc) ∨ (w = 2 ∧ decodeWord w = .b32Dec) ∨
    (w = 3 ∧ decodeWord w = .hmac) ∨ (w = 4 ∧ decodeWord w = .tstep) ∨ (w = 5 ∧ decodeWord w = .hotp) ∨
    (w = 6 ∧ decodeWord w = .totp) ∨ (w = 7 ∧ decodeWord w = .verify) ∨
    (8 ≤ w.toNat ∧ decodeWord w = .illegal w) := by
  by_cases h : 8 ≤ w.toNat
  · simp [h, decodeWord_illegal w h]
  · have hw : w = BitVec.ofNat 32 w.toNat := by simp
    generalize w.toNat = n at *
    have hn : n = 0 ∨ n = 1 ∨ n = 2 ∨ n = 3 ∨ n = 4 ∨ n = 5 ∨ n = 6 ∨ n = 7 := by omega
    rcases hn with rfl | rfl | rfl | rfl | rfl | rfl | rfl | rfl <;> subst hw <;> decide

end Sys2Proof
end

