-- ==== Sys2Proof/Laws/State.lean ====
section
/-! SUPPORT. One lemma per field for each shared update of State, so that no proof unfolds a record. -/

namespace Sys2Proof.Machine

section start

variable (op : Instr) (s : State)

@[simp] theorem start_phase : (start op s).phase = .busy op := rfl
@[simp] theorem start_ie : (start op s).ie = s.ie := rfl
@[simp] theorem start_done : (start op s).done = false := rfl
@[simp] theorem start_valid : (start op s).valid = false := rfl
@[simp] theorem start_covr : (start op s).covr = s.covr := rfl
@[simp] theorem start_wign : (start op s).wign = s.wign := rfl
@[simp] theorem start_err : (start op s).err = .ok := rfl
@[simp] theorem start_digits : (start op s).digits = s.digits := rfl
@[simp] theorem start_alg : (start op s).alg = s.alg := rfl
@[simp] theorem start_window : (start op s).window = s.window := rfl
@[simp] theorem start_stepReg : (start op s).stepReg = s.stepReg := rfl
@[simp] theorem start_time : (start op s).time = s.time := rfl
@[simp] theorem start_counter : (start op s).counter = s.counter := rfl
@[simp] theorem start_key : (start op s).key = s.key := rfl
@[simp] theorem start_klen : (start op s).klen = s.klen := rfl
@[simp] theorem start_text : (start op s).text = s.text := rfl
@[simp] theorem start_tlen : (start op s).tlen = s.tlen := rfl
@[simp] theorem start_cand : (start op s).cand = s.cand := rfl
@[simp] theorem start_clen : (start op s).clen = s.clen := rfl
@[simp] theorem start_digest : (start op s).digest = s.digest := rfl
@[simp] theorem start_codeTxt : (start op s).codeTxt = s.codeTxt := rfl
@[simp] theorem start_trunc : (start op s).trunc = s.trunc := rfl
@[simp] theorem start_ofs : (start op s).ofs = s.ofs := rfl
@[simp] theorem start_code : (start op s).code = s.code := rfl
@[simp] theorem start_rstLow : (start op s).rstLow = s.rstLow := rfl
@[simp] theorem start_inbox : (start op s).inbox = s.inbox := rfl
@[simp] theorem start_response : (start op s).response = s.response := rfl
@[simp] theorem start_drawn : (start op s).drawn = s.drawn := rfl

end start

section commit

variable (e : Completion) (v : Bool) (s : State)

@[simp] theorem commit_phase : (commit e v s).phase = .idle := rfl
@[simp] theorem commit_ie : (commit e v s).ie = s.ie := rfl
@[simp] theorem commit_done : (commit e v s).done = true := rfl
@[simp] theorem commit_valid : (commit e v s).valid = v := rfl
@[simp] theorem commit_covr : (commit e v s).covr = s.covr := rfl
@[simp] theorem commit_wign : (commit e v s).wign = s.wign := rfl
@[simp] theorem commit_err : (commit e v s).err = e := rfl
@[simp] theorem commit_digits : (commit e v s).digits = s.digits := rfl
@[simp] theorem commit_alg : (commit e v s).alg = s.alg := rfl
@[simp] theorem commit_window : (commit e v s).window = s.window := rfl
@[simp] theorem commit_stepReg : (commit e v s).stepReg = s.stepReg := rfl
@[simp] theorem commit_time : (commit e v s).time = s.time := rfl
@[simp] theorem commit_counter : (commit e v s).counter = s.counter := rfl
@[simp] theorem commit_key : (commit e v s).key = s.key := rfl
@[simp] theorem commit_klen : (commit e v s).klen = s.klen := rfl
@[simp] theorem commit_text : (commit e v s).text = s.text := rfl
@[simp] theorem commit_tlen : (commit e v s).tlen = s.tlen := rfl
@[simp] theorem commit_cand : (commit e v s).cand = s.cand := rfl
@[simp] theorem commit_clen : (commit e v s).clen = s.clen := rfl
@[simp] theorem commit_digest : (commit e v s).digest = s.digest := rfl
@[simp] theorem commit_codeTxt : (commit e v s).codeTxt = s.codeTxt := rfl
@[simp] theorem commit_trunc : (commit e v s).trunc = s.trunc := rfl
@[simp] theorem commit_ofs : (commit e v s).ofs = s.ofs := rfl
@[simp] theorem commit_code : (commit e v s).code = s.code := rfl
@[simp] theorem commit_rstLow : (commit e v s).rstLow = s.rstLow := rfl
@[simp] theorem commit_inbox : (commit e v s).inbox = s.inbox := rfl
@[simp] theorem commit_response : (commit e v s).response = s.response := rfl
@[simp] theorem commit_drawn : (commit e v s).drawn = s.drawn := rfl

end commit

section respond

variable (r : Response) (s : State)

@[simp] theorem respond_phase : (respond r s).phase = s.phase := rfl
@[simp] theorem respond_ie : (respond r s).ie = s.ie := rfl
@[simp] theorem respond_done : (respond r s).done = s.done := rfl
@[simp] theorem respond_valid : (respond r s).valid = s.valid := rfl
@[simp] theorem respond_covr : (respond r s).covr = s.covr := rfl
@[simp] theorem respond_wign : (respond r s).wign = s.wign := rfl
@[simp] theorem respond_err : (respond r s).err = s.err := rfl
@[simp] theorem respond_digits : (respond r s).digits = s.digits := rfl
@[simp] theorem respond_alg : (respond r s).alg = s.alg := rfl
@[simp] theorem respond_window : (respond r s).window = s.window := rfl
@[simp] theorem respond_stepReg : (respond r s).stepReg = s.stepReg := rfl
@[simp] theorem respond_time : (respond r s).time = s.time := rfl
@[simp] theorem respond_counter : (respond r s).counter = s.counter := rfl
@[simp] theorem respond_key : (respond r s).key = s.key := rfl
@[simp] theorem respond_klen : (respond r s).klen = s.klen := rfl
@[simp] theorem respond_text : (respond r s).text = s.text := rfl
@[simp] theorem respond_tlen : (respond r s).tlen = s.tlen := rfl
@[simp] theorem respond_cand : (respond r s).cand = s.cand := rfl
@[simp] theorem respond_clen : (respond r s).clen = s.clen := rfl
@[simp] theorem respond_digest : (respond r s).digest = s.digest := rfl
@[simp] theorem respond_codeTxt : (respond r s).codeTxt = s.codeTxt := rfl
@[simp] theorem respond_trunc : (respond r s).trunc = s.trunc := rfl
@[simp] theorem respond_ofs : (respond r s).ofs = s.ofs := rfl
@[simp] theorem respond_code : (respond r s).code = s.code := rfl
@[simp] theorem respond_rstLow : (respond r s).rstLow = s.rstLow := rfl
@[simp] theorem respond_inbox : (respond r s).inbox = s.inbox := rfl
@[simp] theorem respond_response : (respond r s).response = some r := rfl
@[simp] theorem respond_drawn : (respond r s).drawn = s.drawn := rfl

end respond

section resetBlock

variable (s : State)

@[simp] theorem resetBlock_phase : (resetBlock s).phase = .idle := rfl
@[simp] theorem resetBlock_ie : (resetBlock s).ie = false := rfl
@[simp] theorem resetBlock_done : (resetBlock s).done = false := rfl
@[simp] theorem resetBlock_valid : (resetBlock s).valid = false := rfl
@[simp] theorem resetBlock_covr : (resetBlock s).covr = false := rfl
@[simp] theorem resetBlock_wign : (resetBlock s).wign = false := rfl
@[simp] theorem resetBlock_err : (resetBlock s).err = .ok := rfl
@[simp] theorem resetBlock_digits : (resetBlock s).digits = 6 := rfl
@[simp] theorem resetBlock_alg : (resetBlock s).alg = 0 := rfl
@[simp] theorem resetBlock_window : (resetBlock s).window = 1 := rfl
@[simp] theorem resetBlock_stepReg : (resetBlock s).stepReg = 0x1E := rfl
@[simp] theorem resetBlock_time : (resetBlock s).time = 0 := rfl
@[simp] theorem resetBlock_counter : (resetBlock s).counter = 0 := rfl
@[simp] theorem resetBlock_key : (resetBlock s).key = Vector.replicate 64 0 := rfl
@[simp] theorem resetBlock_klen : (resetBlock s).klen = 0 := rfl
@[simp] theorem resetBlock_text : (resetBlock s).text = Vector.replicate 128 0 := rfl
@[simp] theorem resetBlock_tlen : (resetBlock s).tlen = 0 := rfl
@[simp] theorem resetBlock_cand : (resetBlock s).cand = Vector.replicate 12 0 := rfl
@[simp] theorem resetBlock_clen : (resetBlock s).clen = 0 := rfl
@[simp] theorem resetBlock_digest : (resetBlock s).digest = Vector.replicate 20 0 := rfl
@[simp] theorem resetBlock_codeTxt : (resetBlock s).codeTxt = Vector.replicate 12 0 := rfl
@[simp] theorem resetBlock_trunc : (resetBlock s).trunc = 0 := rfl
@[simp] theorem resetBlock_ofs : (resetBlock s).ofs = 0 := rfl
@[simp] theorem resetBlock_code : (resetBlock s).code = 0 := rfl
@[simp] theorem resetBlock_rstLow : (resetBlock s).rstLow = s.rstLow := rfl
@[simp] theorem resetBlock_inbox : (resetBlock s).inbox = s.inbox := rfl
@[simp] theorem resetBlock_response : (resetBlock s).response = s.response := rfl
@[simp] theorem resetBlock_drawn : (resetBlock s).drawn = s.drawn := rfl

end resetBlock

section clearStatus

variable (v : Word) (s : State)

@[simp] theorem clearStatus_phase : (clearStatus v s).phase = s.phase := rfl
@[simp] theorem clearStatus_ie : (clearStatus v s).ie = s.ie := rfl
@[simp] theorem clearStatus_done : (clearStatus v s).done = (s.done && !v.getLsbD 1) := rfl
@[simp] theorem clearStatus_valid : (clearStatus v s).valid = s.valid := rfl
@[simp] theorem clearStatus_covr : (clearStatus v s).covr = (s.covr && !v.getLsbD 3) := rfl
@[simp] theorem clearStatus_wign : (clearStatus v s).wign = (s.wign && !v.getLsbD 4) := rfl
@[simp] theorem clearStatus_err : (clearStatus v s).err = s.err := rfl
@[simp] theorem clearStatus_digits : (clearStatus v s).digits = s.digits := rfl
@[simp] theorem clearStatus_alg : (clearStatus v s).alg = s.alg := rfl
@[simp] theorem clearStatus_window : (clearStatus v s).window = s.window := rfl
@[simp] theorem clearStatus_stepReg : (clearStatus v s).stepReg = s.stepReg := rfl
@[simp] theorem clearStatus_time : (clearStatus v s).time = s.time := rfl
@[simp] theorem clearStatus_counter : (clearStatus v s).counter = s.counter := rfl
@[simp] theorem clearStatus_key : (clearStatus v s).key = s.key := rfl
@[simp] theorem clearStatus_klen : (clearStatus v s).klen = s.klen := rfl
@[simp] theorem clearStatus_text : (clearStatus v s).text = s.text := rfl
@[simp] theorem clearStatus_tlen : (clearStatus v s).tlen = s.tlen := rfl
@[simp] theorem clearStatus_cand : (clearStatus v s).cand = s.cand := rfl
@[simp] theorem clearStatus_clen : (clearStatus v s).clen = s.clen := rfl
@[simp] theorem clearStatus_digest : (clearStatus v s).digest = s.digest := rfl
@[simp] theorem clearStatus_codeTxt : (clearStatus v s).codeTxt = s.codeTxt := rfl
@[simp] theorem clearStatus_trunc : (clearStatus v s).trunc = s.trunc := rfl
@[simp] theorem clearStatus_ofs : (clearStatus v s).ofs = s.ofs := rfl
@[simp] theorem clearStatus_code : (clearStatus v s).code = s.code := rfl
@[simp] theorem clearStatus_rstLow : (clearStatus v s).rstLow = s.rstLow := rfl
@[simp] theorem clearStatus_inbox : (clearStatus v s).inbox = s.inbox := rfl
@[simp] theorem clearStatus_response : (clearStatus v s).response = s.response := rfl
@[simp] theorem clearStatus_drawn : (clearStatus v s).drawn = s.drawn := rfl

end clearStatus

section withHotpResults

variable (c : DWord) (s : State)

@[simp] theorem withHotpResults_phase : (withHotpResults c s).phase = s.phase := by simp only [withHotpResults]
@[simp] theorem withHotpResults_ie : (withHotpResults c s).ie = s.ie := by simp only [withHotpResults]
@[simp] theorem withHotpResults_done : (withHotpResults c s).done = s.done := by simp only [withHotpResults]
@[simp] theorem withHotpResults_valid : (withHotpResults c s).valid = s.valid := by simp only [withHotpResults]
@[simp] theorem withHotpResults_covr : (withHotpResults c s).covr = s.covr := by simp only [withHotpResults]
@[simp] theorem withHotpResults_wign : (withHotpResults c s).wign = s.wign := by simp only [withHotpResults]
@[simp] theorem withHotpResults_err : (withHotpResults c s).err = s.err := by simp only [withHotpResults]
@[simp] theorem withHotpResults_digits : (withHotpResults c s).digits = s.digits := by simp only [withHotpResults]
@[simp] theorem withHotpResults_alg : (withHotpResults c s).alg = s.alg := by simp only [withHotpResults]
@[simp] theorem withHotpResults_window : (withHotpResults c s).window = s.window := by simp only [withHotpResults]
@[simp] theorem withHotpResults_stepReg : (withHotpResults c s).stepReg = s.stepReg := by simp only [withHotpResults]
@[simp] theorem withHotpResults_time : (withHotpResults c s).time = s.time := by simp only [withHotpResults]
@[simp] theorem withHotpResults_counter : (withHotpResults c s).counter = s.counter := by simp only [withHotpResults]
@[simp] theorem withHotpResults_key : (withHotpResults c s).key = s.key := by simp only [withHotpResults]
@[simp] theorem withHotpResults_klen : (withHotpResults c s).klen = s.klen := by simp only [withHotpResults]
@[simp] theorem withHotpResults_text : (withHotpResults c s).text = s.text := by simp only [withHotpResults]
@[simp] theorem withHotpResults_tlen : (withHotpResults c s).tlen = s.tlen := by simp only [withHotpResults]
@[simp] theorem withHotpResults_cand : (withHotpResults c s).cand = s.cand := by simp only [withHotpResults]
@[simp] theorem withHotpResults_clen : (withHotpResults c s).clen = s.clen := by simp only [withHotpResults]
@[simp] theorem withHotpResults_digest : (withHotpResults c s).digest = fillBuffer 20 (counterMac s.keyBytes c) := by simp only [withHotpResults]
@[simp] theorem withHotpResults_codeTxt : (withHotpResults c s).codeTxt = fillBuffer 12 (codeText (codeValue (truncValue (counterMac s.keyBytes c)) s.digits.toNat) s.digits.toNat) := by simp only [withHotpResults]
@[simp] theorem withHotpResults_trunc : (withHotpResults c s).trunc = truncValue (counterMac s.keyBytes c) := by simp only [withHotpResults]
@[simp] theorem withHotpResults_ofs : (withHotpResults c s).ofs = truncOffset (counterMac s.keyBytes c) := by simp only [withHotpResults]
@[simp] theorem withHotpResults_code : (withHotpResults c s).code = codeValue (truncValue (counterMac s.keyBytes c)) s.digits.toNat := by simp only [withHotpResults]
@[simp] theorem withHotpResults_rstLow : (withHotpResults c s).rstLow = s.rstLow := by simp only [withHotpResults]
@[simp] theorem withHotpResults_inbox : (withHotpResults c s).inbox = s.inbox := by simp only [withHotpResults]
@[simp] theorem withHotpResults_response : (withHotpResults c s).response = s.response := by simp only [withHotpResults]
@[simp] theorem withHotpResults_drawn : (withHotpResults c s).drawn = s.drawn := by simp only [withHotpResults]

end withHotpResults

end Sys2Proof.Machine
end

