-- ==== Sys2Proof/Laws/Step.lean ====
section
/-! SUPPORT. What each meaning answers in each of its cases, what each event does, and what one step can
do. -/

namespace Sys2Proof.Machine

/-! ### The meanings, case by case -/

section meanings

variable {s : State}

theorem execB32Enc_long (h : 64 < s.klen.toNat) :
    execB32Enc s = .next (commit .capacityExceeded false s) := by
  simp [execB32Enc, State.keyTooLong, raise, h]

theorem execB32Enc_ok (h : s.klen.toNat ≤ 64) :
    execB32Enc s = .next (commit .ok false
      { s with
        text := fillBuffer 128 (base32Encode s.keyBytes)
        tlen := BitVec.ofNat 8 (base32Encode s.keyBytes).length }) := by
  simp [execB32Enc, State.keyTooLong, complete, Nat.not_lt.mpr h]

theorem execB32Dec_long (h : 128 < s.tlen.toNat) :
    execB32Dec s = .next (commit .capacityExceeded false s) := by
  simp [execB32Dec, State.textTooLong, raise, h]

theorem execB32Dec_error {e : Completion} (h : s.tlen.toNat ≤ 128) (hd : base32Decode s.textBytes = .error e) :
    execB32Dec s = .next (commit e false s) := by
  simp [execB32Dec, State.textTooLong, raise, Nat.not_lt.mpr h, hd]

theorem execB32Dec_ok {bytes : List Byte} (h : s.tlen.toNat ≤ 128)
    (hd : base32Decode s.textBytes = .ok bytes) :
    execB32Dec s = .next (commit .ok false
      { s with key := fillBuffer 64 bytes, klen := BitVec.ofNat 7 bytes.length }) := by
  simp [execB32Dec, State.textTooLong, complete, Nat.not_lt.mpr h, hd]

theorem execHmac_long (h : 64 < s.klen.toNat) : execHmac s = .next (commit .capacityExceeded false s) := by
  simp [execHmac, State.keyTooLong, raise, h]

theorem execHmac_bad (h : s.klen.toNat ≤ 64) (ha : s.alg ≠ 0) :
    execHmac s = .next (commit .invalidParameters false s) := by
  have : s.badAlg = true := by simpa [State.badAlg] using ha
  simp [execHmac, State.keyTooLong, this, raise, Nat.not_lt.mpr h]

theorem execHmac_ok (h : s.klen.toNat ≤ 64) (ha : s.alg = 0) :
    execHmac s = .next (commit .ok false
      { s with digest := fillBuffer 20 (counterMac s.keyBytes s.counter) }) := by
  simp [execHmac, State.keyTooLong, State.badAlg, complete, Nat.not_lt.mpr h, ha]

theorem badTimeStep_iff : s.badTimeStep = true ↔ ¬ s.LegalTimeStep := by
  have h : s.time.getLsbD 63 = true ↔ ¬ s.time.toNat < 2 ^ 63 := by
    rw [show s.time.getLsbD 63 = s.time.msb by simp [BitVec.msb_eq_getLsbD_last], BitVec.msb_eq_decide]
    simp
  simp only [State.badTimeStep, Bool.or_eq_true, decide_eq_true_eq, h]
  tauto

theorem badConfig_iff : (s.badAlg || s.badDigits) = true ↔ ¬ s.LegalConfig := by
  simp only [State.badAlg, State.badDigits, Bool.or_eq_true, decide_eq_true_eq, bne_iff_ne, State.LegalConfig,
    not_and_or, not_le, Nat.lt_one_iff, ne_eq]

theorem execTstep_bad (h : ¬ s.LegalTimeStep) : execTstep s = .next (commit .invalidParameters false s) := by
  simp [execTstep, badTimeStep_iff.mpr h, raise]

theorem execTstep_ok (h : s.LegalTimeStep) :
    execTstep s = .next (commit .ok false { s with counter := s.timeCounter }) := by
  have : s.badTimeStep = false := Bool.eq_false_iff.mpr fun hb => badTimeStep_iff.mp hb h
  simp [execTstep, this, complete]

theorem execHotp_long (h : 64 < s.klen.toNat) : execHotp s = .next (commit .capacityExceeded false s) := by
  simp [execHotp, State.keyTooLong, raise, h]

theorem execHotp_bad (h : s.klen.toNat ≤ 64) (hc : ¬ s.LegalConfig) :
    execHotp s = .next (commit .invalidParameters false s) := by
  simp only [execHotp, State.keyTooLong, Nat.not_lt.mpr h, badConfig_iff.mpr hc]
  rfl

theorem execHotp_ok (h : s.klen.toNat ≤ 64) (hc : s.LegalConfig) :
    execHotp s = .next (commit .ok false (withHotpResults s.counter s)) := by
  have : (s.badAlg || s.badDigits) = false := Bool.eq_false_iff.mpr fun hb => badConfig_iff.mp hb hc
  simp only [execHotp, State.keyTooLong, Nat.not_lt.mpr h, this]
  rfl

theorem badAll_iff :
    (s.badAlg || s.badDigits || s.badTimeStep) = true ↔ ¬ s.LegalConfig ∨ ¬ s.LegalTimeStep := by
  rw [Bool.or_eq_true, badConfig_iff, badTimeStep_iff]

theorem execTotp_long (h : 64 < s.klen.toNat) : execTotp s = .next (commit .capacityExceeded false s) := by
  simp [execTotp, State.keyTooLong, raise, h]

theorem execTotp_bad (h : s.klen.toNat ≤ 64) (hc : ¬ s.LegalConfig ∨ ¬ s.LegalTimeStep) :
    execTotp s = .next (commit .invalidParameters false s) := by
  simp only [execTotp, State.keyTooLong, Nat.not_lt.mpr h, badAll_iff.mpr hc]
  rfl

theorem notBadAll (hc : s.LegalConfig) (ht : s.LegalTimeStep) :
    (s.badAlg || s.badDigits || s.badTimeStep) = false :=
  Bool.eq_false_iff.mpr fun hb => (badAll_iff.mp hb).elim (· hc) (· ht)

theorem execTotp_ok (h : s.klen.toNat ≤ 64) (hc : s.LegalConfig) (ht : s.LegalTimeStep) :
    execTotp s = .next (commit .ok false
      (withHotpResults s.timeCounter { s with counter := s.timeCounter })) := by
  simp only [execTotp, State.keyTooLong, Nat.not_lt.mpr h, notBadAll hc ht]
  rfl

theorem execVerify_long (h : 64 < s.klen.toNat ∨ 12 < s.clen.toNat) :
    execVerify s = .next (commit .capacityExceeded false s) := by
  simp [execVerify, State.keyTooLong, State.candTooLong, raise, h]

theorem execVerify_bad (h : s.klen.toNat ≤ 64) (hl : s.clen.toNat ≤ 12)
    (hc : ¬ s.LegalConfig ∨ ¬ s.LegalTimeStep) :
    execVerify s = .next (commit .invalidParameters false s) := by
  simp only [execVerify, State.keyTooLong, State.candTooLong, Nat.not_lt.mpr h, Nat.not_lt.mpr hl,
    badAll_iff.mpr hc]
  rfl

theorem execVerify_ok (h : s.klen.toNat ≤ 64) (hl : s.clen.toNat ≤ 12) (hc : s.LegalConfig)
    (ht : s.LegalTimeStep) :
    execVerify s = .next (commit .ok s.candidateValid { s with counter := s.timeCounter }) := by
  simp only [execVerify, State.keyTooLong, State.candTooLong, Nat.not_lt.mpr h, Nat.not_lt.mpr hl,
    notBadAll hc ht]
  rfl

end meanings

/-! ### The step, event by event -/

section events

variable {s : State} {rest : List Event}

theorem step_nil (h : s.inbox = []) : step s = engineMove s := by simp [step, nextMove, h]

theorem step_cons {e : Event} (h : s.inbox = e :: rest) : step s = eventMove e { s with inbox := rest } := by
  simp [step, nextMove, h]

theorem step_access {a : BusAccess} (hl : s.rstLow = false) (h : s.inbox = .access a :: rest) :
    step s = .next (busAccess a { s with inbox := rest }) := by
  simp [step_cons h, eventMove, hostMove, hl]

theorem busAccess_writeAccess (addr : BitVec 12) (v : Word) (s : State) :
    busAccess (writeAccess addr v) s = busWrite addr 0b1111 v s := rfl

theorem misaligned_iff (addr : BitVec 12) : misaligned addr = true ↔ addr.toNat % 4 ≠ 0 := by
  simp only [misaligned, bne_iff_ne, ne_eq, ← BitVec.toNat_inj, BitVec.extractLsb'_toNat,
    Nat.shiftRight_zero]
  exact Iff.rfl

theorem misaligned_false (addr : BitVec 12) (h : addr.toNat % 4 = 0) : misaligned addr = false :=
  Bool.eq_false_iff.mpr fun hm => (misaligned_iff addr).mp hm h

theorem busWrite_full (addr : BitVec 12) (v : Word) (h : addr.toNat % 4 = 0) :
    busWrite addr 0b1111 v s = respond ⟨false, none⟩ (writeReg (regAt addr) v s) := by
  simp [busWrite, misaligned_false addr h]

theorem busRead_aligned (addr : BitVec 12) (h : addr.toNat % 4 = 0) :
    busRead addr s = respond ⟨false, some (readReg (regAt addr) s)⟩ s := by
  simp [busRead, misaligned_false addr h]

end events

/-! ### What a command can do -/

/-- Everything `exec` can do: it fails and changes STATUS only, or it completes and changes STATUS and its
results only (spec/60_exceptions.md R236, R237; spec/10_state.md R48). -/
inductive ExecCase (op : Instr) (s : State) : Prop
  | failed (e : Completion) (he : e ≠ .ok) (h : exec op s = .next (commit e false s))
  | completed (v : Bool) (r : State) (h : exec op s = .next (commit .ok v r)) (ie : r.ie = s.ie)
      (covr : r.covr = s.covr) (wign : r.wign = s.wign) (rstLow : r.rstLow = s.rstLow)
      (inbox : r.inbox = s.inbox) (response : r.response = s.response) (drawn : r.drawn = s.drawn)
      (results : OnlyResults op s (commit .ok v r))

theorem base32Decode_error_ne_ok {text : List Byte} {e : Completion} (h : base32Decode text = .error e) :
    e ≠ .ok := by
  rintro rfl
  simp only [base32Decode] at h
  repeat' split at h
  all_goals cases h

theorem exec_cases (op : Instr) (s : State) : ExecCase op s := by
  cases op with
  | nop => exact .completed _ s rfl rfl rfl rfl rfl rfl rfl rfl rfl
  | illegal w => exact .failed .illegalCommand (by decide) rfl
  | b32Enc =>
    rcases Nat.lt_or_ge 64 s.klen.toNat with h | h
    · exact .failed _ (by decide) (execB32Enc_long h)
    · exact .completed _ _ (execB32Enc_ok h) rfl rfl rfl rfl rfl rfl rfl rfl
  | b32Dec =>
    rcases Nat.lt_or_ge 128 s.tlen.toNat with h | h
    · exact .failed _ (by decide) (execB32Dec_long h)
    · cases hd : base32Decode s.textBytes with
      | error e => exact .failed _ (base32Decode_error_ne_ok hd) (execB32Dec_error h hd)
      | ok b => exact .completed _ _ (execB32Dec_ok h hd) rfl rfl rfl rfl rfl rfl rfl rfl
  | hmac =>
    rcases Nat.lt_or_ge 64 s.klen.toNat with h | h
    · exact .failed _ (by decide) (execHmac_long h)
    · by_cases ha : s.alg = 0
      · exact .completed _ _ (execHmac_ok h ha) rfl rfl rfl rfl rfl rfl rfl rfl
      · exact .failed _ (by decide) (execHmac_bad h ha)
  | tstep =>
    by_cases h : s.LegalTimeStep
    · exact .completed _ _ (execTstep_ok h) rfl rfl rfl rfl rfl rfl rfl rfl
    · exact .failed _ (by decide) (execTstep_bad h)
  | hotp =>
    rcases Nat.lt_or_ge 64 s.klen.toNat with h | h
    · exact .failed _ (by decide) (execHotp_long h)
    · by_cases hc : s.LegalConfig
      · refine .completed _ _ (execHotp_ok h hc) ?_ ?_ ?_ ?_ ?_ ?_ ?_ ?_ <;>
          simp only [OnlyResults, commit, withHotpResults]
      · exact .failed _ (by decide) (execHotp_bad h hc)
  | totp =>
    rcases Nat.lt_or_ge 64 s.klen.toNat with h | h
    · exact .failed _ (by decide) (execTotp_long h)
    · by_cases hc : s.LegalConfig ∧ s.LegalTimeStep
      · refine .completed _ _ (execTotp_ok h hc.1 hc.2) ?_ ?_ ?_ ?_ ?_ ?_ ?_ ?_ <;>
          simp only [OnlyResults, commit, withHotpResults]
      · exact .failed _ (by decide) (execTotp_bad h (not_and_or.mp hc))
  | verify =>
    by_cases h : 64 < s.klen.toNat ∨ 12 < s.clen.toNat
    · exact .failed _ (by decide) (execVerify_long h)
    · by_cases hc : s.LegalConfig ∧ s.LegalTimeStep
      · exact .completed _ _ (execVerify_ok (by omega) (by omega) hc.1 hc.2) rfl rfl rfl rfl rfl rfl rfl rfl
      · exact .failed _ (by decide) (execVerify_bad (by omega) (by omega) (not_and_or.mp hc))

/-! ### What one step can do -/

theorem busy_eq_false_iff {s : State} : s.busy = false ↔ s.phase = .idle := by
  cases hp : s.phase <;> simp [State.busy, hp]

/-- Everything a step that answers a next state can do. -/
inductive StepCase (s t : State) : Prop
  | commits (op : Instr) (rest : List Event) (hp : s.phase = .busy op) (hc : s.Commits op)
      (he : exec op { s with inbox := rest } = .next t)
  | idle (hp : s.phase = .idle) (rest : List Event) (ht : t = { s with inbox := rest })
  | access (a : BusAccess) (rest : List Event) (hi : s.inbox = .access a :: rest) (hl : s.rstLow = false)
      (ht : t = busAccess a { s with inbox := rest })
  | assert (cut : Bool) (rest : List Event) (hi : s.inbox = .resetAssert cut :: rest)
      (ht : t = assertReset cut { s with inbox := rest })
  | release (rest : List Event) (hi : s.inbox = .resetRelease :: rest)
      (ht : t = releaseReset { s with inbox := rest })

theorem engineMove_cases {s t : State} (rest : List Event)
    (hin : s.inbox = [] ∨ ∃ rest, s.inbox = .engineTurn :: rest)
    (h : engineMove { s with inbox := rest } = .next t) : StepCase s t := by
  cases hp : s.phase with
  | idle =>
    simp only [engineMove, hp] at h
    cases h
    exact .idle hp rest (by rw [← hp])
  | busy op =>
    simp only [engineMove, hp] at h
    exact .commits op rest hp ⟨hp, hin⟩ (by rw [← hp] at h; exact h)

theorem step_cases {s t : State} (h : step s = .next t) : StepCase s t := by
  cases hi : s.inbox with
  | nil =>
    rw [step_nil hi] at h
    exact engineMove_cases [] (.inl hi) (by rw [← hi]; exact h)
  | cons e rest =>
    rw [step_cons hi] at h
    cases e with
    | engineTurn => exact engineMove_cases rest (.inr ⟨rest, hi⟩) h
    | access a =>
      simp only [eventMove, hostMove] at h
      split at h
      · cases h
      · next hl => cases h; exact .access a rest hi (by simpa using hl) rfl
    | resetAssert c => cases h; exact .assert c rest hi rfl
    | resetRelease => cases h; exact .release rest hi rfl

/-- Everything an access can do: it answers and changes nothing, or it is a full aligned write. -/
inductive AccessCase (a : BusAccess) (s t : State) : Prop
  | same (r : Response) (ht : t = respond r s)
  | write (addr : BitVec 12) (v : Word) (r : Response) (ha : a = writeAccess addr v)
      (h4 : addr.toNat % 4 = 0) (ht : t = respond r (writeReg (regAt addr) v s))

theorem access_cases (a : BusAccess) (s : State) : AccessCase a s (busAccess a s) := by
  rcases a with ⟨d, addr, v, strb⟩
  cases d with
  | read => simp only [busAccess, busRead]; split <;> exact .same _ rfl
  | write =>
    simp only [busAccess, busWrite]
    split
    · exact .same _ rfl
    · next h =>
      simp only [Bool.or_eq_true, not_or, Bool.not_eq_true, bne_eq_false_iff_eq] at h
      obtain ⟨h1, rfl⟩ := h
      exact .write addr v _ rfl (by by_contra hh; simp [(misaligned_iff addr).mpr hh] at h1) rfl

/-- The operand registers (spec/10_state.md R31). -/
def Reg.isOperand : Reg → Bool
  | .cfg | .stepReg | .timeLo | .timeHi | .cntLo | .cntHi | .klen | .tlen | .clen => true
  | .cand _ | .key _ | .text _ => true
  | .id | .ctrl | .status | .cmd | .trunc | .code | .ofs | .codeTxt _ | .digest _ | .reserved => false

/-- The registers a write does not change (spec/20_memory.md R68, R69). -/
def Reg.isIgnored : Reg → Bool
  | .id | .trunc | .code | .ofs | .codeTxt _ | .digest _ | .reserved => true
  | .cfg | .stepReg | .timeLo | .timeHi | .cntLo | .cntHi | .klen | .tlen | .clen => false
  | .cand _ | .key _ | .text _ | .ctrl | .status | .cmd => false

/-- Everything a full-word write to a register can do. A store leaves everything but the operand registers
as it was, and of KEY, COUNTER and TIME those that the register is no word of. -/
inductive WriteCase (r : Reg) (v : Word) (s t : State) : Prop
  | start (hr : r = .cmd) (hp : s.phase = .idle) (ht : t = start (decodeWord v) s)
  | covr (hr : r = .cmd) (hb : s.busy = true) (ht : t = { s with covr := true })
  | reset (hr : r = .ctrl) (hv : v.getLsbD 1 = true) (ht : t = resetBlock s)
  | ie (hr : r = .ctrl) (hv : v.getLsbD 1 = false) (ht : t = { s with ie := v.getLsbD 0 })
  | status (hr : r = .status) (ht : t = clearStatus v s)
  | wign (hr : r.isOperand = true) (hb : s.busy = true) (ht : t = { s with wign := true })
  | store (hr : r.isOperand = true) (hp : s.phase = .idle) (digits : BitVec 4) (alg : BitVec 2)
      (window : BitVec 8) (stepReg : Word) (time counter : DWord) (key : Vector Byte 64) (klen : BitVec 7)
      (text : Vector Byte 128) (tlen : BitVec 8) (cand : Vector Byte 12) (clen : BitVec 4)
      (ht : t = { s with
        digits := digits, alg := alg, window := window, stepReg := stepReg, time := time
        counter := counter, key := key, klen := klen, text := text, tlen := tlen
        cand := cand, clen := clen })
      (hk : key ≠ s.key → ∃ k, r = .key k) (hc : counter ≠ s.counter → r = .cntLo ∨ r = .cntHi)
      (htm : time ≠ s.time → r = .timeLo ∨ r = .timeHi)
  | same (hr : r.isIgnored = true) (ht : t = s)

theorem write_cases (r : Reg) (v : Word) (s : State) : WriteCase r v s (writeReg r v s) := by
  have hbt : s.busy = true ∨ s.busy = false := by cases s.busy <;> simp
  cases r <;> simp only [writeReg, operandWrite]
  case cmd =>
    rcases hbt with h | h <;> simp only [h, if_true]
    · exact .covr rfl h rfl
    · exact .start rfl (busy_eq_false_iff.mp h) rfl
  case ctrl =>
    cases hv : v.getLsbD 1
    · exact .ie rfl hv rfl
    · exact .reset rfl hv rfl
  case status => exact .status rfl rfl
  case id | trunc | code | ofs | codeTxt | digest | reserved => exact .same rfl rfl
  case key k =>
    rcases hbt with h | h <;> simp only [h, if_true]
    · exact .wign rfl h rfl
    · exact .store rfl (busy_eq_false_iff.mp h) _ _ _ _ _ _ _ _ _ _ _ _ rfl (fun _ => ⟨k, rfl⟩)
        (fun hc => absurd rfl hc) fun ht => absurd rfl ht
  case cntLo | cntHi =>
    rcases hbt with h | h <;> simp only [h, if_true]
    · exact .wign rfl h rfl
    · exact .store rfl (busy_eq_false_iff.mp h) _ _ _ _ _ _ _ _ _ _ _ _ rfl (fun hk => absurd rfl hk)
        (fun _ => by simp) fun ht => absurd rfl ht
  case timeLo | timeHi =>
    rcases hbt with h | h <;> simp only [h, if_true]
    · exact .wign rfl h rfl
    · exact .store rfl (busy_eq_false_iff.mp h) _ _ _ _ _ _ _ _ _ _ _ _ rfl (fun hk => absurd rfl hk)
        (fun hc => absurd rfl hc) fun _ => by simp
  all_goals
    rcases hbt with h | h <;> simp only [h, if_true]
    · exact .wign rfl h rfl
    · exact .store rfl (busy_eq_false_iff.mp h) _ _ _ _ _ _ _ _ _ _ _ _ rfl (fun hk => absurd rfl hk)
        (fun hc => absurd rfl hc) fun ht => absurd rfl ht

/-! ### The offsets of registers -/

theorem regAt_ctrl {addr : BitVec 12} (h : regAt addr = .ctrl) : addr = 0x004 := by
  unfold regAt at h
  dsimp only at h
  repeat' split at h
  all_goals first | exact BitVec.eq_of_toNat_eq ‹_› | cases h

theorem regAt_status {addr : BitVec 12} (h : regAt addr = .status) : addr = 0x008 := by
  unfold regAt at h
  dsimp only at h
  repeat' split at h
  all_goals first | exact BitVec.eq_of_toNat_eq ‹_› | cases h

theorem regAt_cmd {addr : BitVec 12} (h : regAt addr = .cmd) : addr = 0x00C := by
  unfold regAt at h
  dsimp only at h
  repeat' split at h
  all_goals first | exact BitVec.eq_of_toNat_eq ‹_› | cases h

theorem regAt_timeLo {addr : BitVec 12} (h : regAt addr = .timeLo) : addr = 0x018 := by
  unfold regAt at h
  dsimp only at h
  repeat' split at h
  all_goals first | exact BitVec.eq_of_toNat_eq ‹_› | cases h

theorem regAt_timeHi {addr : BitVec 12} (h : regAt addr = .timeHi) : addr = 0x01C := by
  unfold regAt at h
  dsimp only at h
  repeat' split at h
  all_goals first | exact BitVec.eq_of_toNat_eq ‹_› | cases h

theorem regAt_cntLo {addr : BitVec 12} (h : regAt addr = .cntLo) : addr = 0x020 := by
  unfold regAt at h
  dsimp only at h
  repeat' split at h
  all_goals first | exact BitVec.eq_of_toNat_eq ‹_› | cases h

theorem regAt_cntHi {addr : BitVec 12} (h : regAt addr = .cntHi) : addr = 0x024 := by
  unfold regAt at h
  dsimp only at h
  repeat' split at h
  all_goals first | exact BitVec.eq_of_toNat_eq ‹_› | cases h

theorem regAt_key {addr : BitVec 12} {k : Fin 16} (h : regAt addr = .key k) :
    0x100 ≤ addr.toNat ∧ addr.toNat < 0x140 ∧ k.val = (addr.toNat - 0x100) / 4 := by
  unfold regAt at h
  dsimp only at h
  repeat' split at h
  all_goals first | (cases h; exact ⟨by omega, by omega, rfl⟩) | cases h

/-- The operand offsets are aligned, and the registers there are operand registers. -/
theorem operandOffset_spec {addr : BitVec 12} (h : operandOffset addr = true) :
    (regAt addr).isOperand = true ∧ addr.toNat % 4 = 0 := by
  revert addr
  decide +kernel

/-- The ignored offsets are aligned, and a write does not change the registers there. -/
theorem ignoredOffset_spec {addr : BitVec 12} (h : ignoredOffset addr = true) :
    (regAt addr).isIgnored = true ∧ addr.toNat % 4 = 0 := by
  revert addr
  decide +kernel

theorem softResets_writeAccess (v : Word) (h : v.getLsbD 1 = true) :
    softResets (writeAccess 0x004 v) = true := by
  simp [softResets, writeAccess, h]

theorem softResets_eq {a : BusAccess} (h : softResets a = true) :
    ∃ v, a = writeAccess 0x004 v ∧ v.getLsbD 1 = true := by
  rcases a with ⟨d, addr, v, strb⟩
  simp only [softResets, Bool.and_eq_true, beq_iff_eq] at h
  obtain ⟨⟨⟨rfl, rfl⟩, rfl⟩, h⟩ := h
  exact ⟨v, rfl, h⟩

end Sys2Proof.Machine
end

