-- ==== Sys2Proof/Laws/Bus.lean ====
section
/-! SUPPORT. Reads after writes of the operand registers. -/

namespace Sys2Proof.Machine

@[simp] theorem readReg_respond (r : Reg) (a : Response) (s : State) : readReg r (respond a s) = readReg r s := by
  cases r <;> rfl

/-- A read does not depend on the model's own fields. -/
theorem readReg_inbox (r : Reg) (s : State) (inbox : List Event) (response : Option Response) :
    readReg r { s with inbox := inbox, response := response } = readReg r s := by
  cases r <;> rfl

theorem bufferWord_setBufferWord_ne {n : Nat} (buf : Vector Byte n) (k k' : Nat) (w : Word)
    (h : 4 * k' + 4 ≤ n) (hne : k' ≠ k) : bufferWord (setBufferWord buf k w) k' = bufferWord buf k' :=
  (bufferWord_setBufferWord _ _ _ _ h).trans (if_neg hne)

/-- A write of an operand register at IDLE changes what a read of that register returns, and no other. -/
theorem readReg_writeReg_ne (r r' : Reg) (v : Word) (s : State) (hne : r' ≠ r) (hr : r.isOperand = true)
    (hb : s.busy = false) : readReg r' (writeReg r v s) = readReg r' s := by
  cases r <;> first | (exact absurd hr (by decide)) | skip
  all_goals simp only [writeReg, operandWrite, hb, Bool.false_eq_true, if_false]
  case key k =>
    cases r' with
    | key k' =>
      simp only [readReg]
      exact bufferWord_setBufferWord_ne s.key k k' v (by omega) fun h => hne (by rw [Fin.ext h])
    | _ => simp only [readReg, State.statusWord, State.cfgWord, State.busy]
  case text k =>
    cases r' with
    | text k' =>
      simp only [readReg]
      exact bufferWord_setBufferWord_ne s.text k k' v (by omega) fun h => hne (by rw [Fin.ext h])
    | _ => simp only [readReg, State.statusWord, State.cfgWord, State.busy]
  case cand k =>
    cases r' with
    | cand k' =>
      simp only [readReg]
      exact bufferWord_setBufferWord_ne s.cand k k' v (by omega) fun h => hne (by rw [Fin.ext h])
    | _ => simp only [readReg, State.statusWord, State.cfgWord, State.busy]
  all_goals
    cases r' <;> first
    | exact absurd rfl hne
    | simp only [readReg, State.statusWord, State.cfgWord, State.busy, hiWord_withLo, loWord_withHi]

theorem cfgWord_bits (v : Word) :
    (0#16 ++ v.extractLsb' 8 8 ++ 0#2 ++ v.extractLsb' 4 2 ++ v.extractLsb' 0 4 : Word) = v &&& 0x0000FF3F := by
  apply BitVec.eq_of_getLsbD_eq
  intro i hi
  simp only [BitVec.getLsbD_append, BitVec.getLsbD_and, BitVec.getLsbD_extractLsb']
  interval_cases i <;> simp

/-- The word a read returns after a write of `v` to the four operand registers with reserved bits. -/
theorem readReg_writeReg_cfg (v : Word) (s : State) (hb : s.busy = false) :
    readReg .cfg (writeReg .cfg v s) = v &&& 0x0000FF3F := by
  simp only [writeReg, operandWrite, hb, Bool.false_eq_true, if_false, readReg, State.cfgWord]
  exact cfgWord_bits v

theorem readReg_writeReg_klen (v : Word) (s : State) (hb : s.busy = false) :
    readReg .klen (writeReg .klen v s) = v &&& 0x0000007F := by
  simp only [writeReg, operandWrite, hb, Bool.false_eq_true, if_false, readReg]
  apply BitVec.eq_of_getLsbD_eq
  intro i hi
  interval_cases i <;> simp

theorem readReg_writeReg_tlen (v : Word) (s : State) (hb : s.busy = false) :
    readReg .tlen (writeReg .tlen v s) = v &&& 0x000000FF := by
  simp only [writeReg, operandWrite, hb, Bool.false_eq_true, if_false, readReg]
  apply BitVec.eq_of_getLsbD_eq
  intro i hi
  interval_cases i <;> simp

theorem readReg_writeReg_clen (v : Word) (s : State) (hb : s.busy = false) :
    readReg .clen (writeReg .clen v s) = v &&& 0x0000000F := by
  simp only [writeReg, operandWrite, hb, Bool.false_eq_true, if_false, readReg]
  apply BitVec.eq_of_getLsbD_eq
  intro i hi
  interval_cases i <;> simp

/-- Every other operand register reads back the whole word. -/
theorem readReg_writeReg_whole (r : Reg) (v : Word) (s : State) (hr : r.isOperand = true)
    (hb : s.busy = false) (h1 : r ≠ .cfg) (h2 : r ≠ .klen) (h3 : r ≠ .tlen) (h4 : r ≠ .clen) :
    readReg r (writeReg r v s) = v := by
  cases r <;> first | (exact absurd hr (by decide)) | skip
  all_goals simp only [writeReg, operandWrite, hb, Bool.false_eq_true, if_false, readReg]
  case cfg => exact absurd rfl h1
  case klen => exact absurd rfl h2
  case tlen => exact absurd rfl h3
  case clen => exact absurd rfl h4
  case codeTxt | digest => cases hr
  case timeLo | cntLo => exact loWord_withLo _ _
  case timeHi | cntHi => exact hiWord_withHi _ _
  case key k => exact (bufferWord_setBufferWord s.key _ _ _ (by omega)).trans (if_pos rfl)
  case text k => exact (bufferWord_setBufferWord s.text _ _ _ (by omega)).trans (if_pos rfl)
  case cand k => exact (bufferWord_setBufferWord s.cand _ _ _ (by omega)).trans (if_pos rfl)

end Sys2Proof.Machine
end

