-- ==== Sys2Proof/Laws/Engine.lean ====
section
/-! SUPPORT. What a running command sees of the host, and runs of several steps. -/

namespace Sys2Proof.Machine

/-- A commit depends on IE, DONE, COVR, WIGN and the model's own fields only in leaving them as they are
(DONE is set). -/
theorem exec_outside {op : Instr} {s u : State} (h : exec op s = .next u) (ie done covr wign : Bool)
    (response : Option Response) (inbox : List Event) :
    exec op { s with
        ie := ie, done := done, covr := covr, wign := wign, response := response, inbox := inbox } =
      .next { u with ie := ie, covr := covr, wign := wign, response := response, inbox := inbox } := by
  cases op with
  | nop => cases h; rfl
  | illegal w => cases h; rfl
  | b32Enc =>
    change execB32Enc _ = _ at h ⊢
    rcases Nat.lt_or_ge 64 s.klen.toNat with hk | hk
    · rw [execB32Enc_long hk] at h; cases h; exact execB32Enc_long hk
    · rw [execB32Enc_ok hk] at h; cases h; exact execB32Enc_ok hk
  | b32Dec =>
    change execB32Dec _ = _ at h ⊢
    rcases Nat.lt_or_ge 128 s.tlen.toNat with hk | hk
    · rw [execB32Dec_long hk] at h; cases h; exact execB32Dec_long hk
    · cases hd : base32Decode s.textBytes with
      | error e => rw [execB32Dec_error hk hd] at h; cases h; exact execB32Dec_error hk hd
      | ok b => rw [execB32Dec_ok hk hd] at h; cases h; exact execB32Dec_ok hk hd
  | hmac =>
    change execHmac _ = _ at h ⊢
    rcases Nat.lt_or_ge 64 s.klen.toNat with hk | hk
    · rw [execHmac_long hk] at h; cases h; exact execHmac_long hk
    · by_cases ha : s.alg = 0
      · rw [execHmac_ok hk ha] at h; cases h; exact execHmac_ok hk ha
      · rw [execHmac_bad hk ha] at h; cases h; exact execHmac_bad hk ha
  | tstep =>
    change execTstep _ = _ at h ⊢
    by_cases ha : s.LegalTimeStep
    · rw [execTstep_ok ha] at h; cases h; exact execTstep_ok ha
    · rw [execTstep_bad ha] at h; cases h; exact execTstep_bad ha
  | hotp =>
    change execHotp _ = _ at h ⊢
    rcases Nat.lt_or_ge 64 s.klen.toNat with hk | hk
    · rw [execHotp_long hk] at h; cases h; exact execHotp_long hk
    · by_cases ha : s.LegalConfig
      · rw [execHotp_ok hk ha] at h; cases h; rw [@execHotp_ok
          { s with ie := ie, done := done, covr := covr, wign := wign, response := response, inbox := inbox }
          hk ha]
        simp only [commit, withHotpResults, State.keyBytes]
      · rw [execHotp_bad hk ha] at h; cases h; exact execHotp_bad hk ha
  | totp =>
    change execTotp _ = _ at h ⊢
    rcases Nat.lt_or_ge 64 s.klen.toNat with hk | hk
    · rw [execTotp_long hk] at h; cases h; exact execTotp_long hk
    · by_cases ha : s.LegalConfig ∧ s.LegalTimeStep
      · rw [execTotp_ok hk ha.1 ha.2] at h; cases h; rw [@execTotp_ok
          { s with ie := ie, done := done, covr := covr, wign := wign, response := response, inbox := inbox }
          hk ha.1 ha.2]
        simp only [commit, withHotpResults, State.keyBytes, State.timeCounter]
      · rw [execTotp_bad hk (not_and_or.mp ha)] at h
        cases h
        exact execTotp_bad hk (not_and_or.mp ha)
  | verify =>
    change execVerify _ = _ at h ⊢
    by_cases hk : 64 < s.klen.toNat ∨ 12 < s.clen.toNat
    · rw [execVerify_long hk] at h
      cases h
      exact execVerify_long hk
    · have h1 : s.klen.toNat ≤ 64 := by omega
      have h2 : s.clen.toNat ≤ 12 := by omega
      by_cases ha : s.LegalConfig ∧ s.LegalTimeStep
      · rw [execVerify_ok h1 h2 ha.1 ha.2] at h
        cases h
        exact execVerify_ok h1 h2 ha.1 ha.2
      · rw [execVerify_bad h1 h2 (not_and_or.mp ha)] at h
        cases h
        exact execVerify_bad h1 h2 (not_and_or.mp ha)

theorem run_succ {s t : State} (h : step s = .next t) (n : Nat) :
    Sys2Proof.core.run (n + 1) s = Sys2Proof.core.run n t := by
  simp only [Host.Core.run, Sys2Proof.core, h]

/-- While BUSY, an access that is no soft reset changes IE, DONE, COVR, WIGN and the response at most
(spec/20_memory.md R72). -/
theorem busAccess_busy {a : BusAccess} {s : State} {op : Instr} (hp : s.phase = .busy op)
    (ha : softResets a = false) :
    ∃ (ie done covr wign : Bool) (r : Response),
      busAccess a s =
        { s with ie := ie, done := done, covr := covr, wign := wign, response := some r } := by
  have hb : s.busy = true := by simp [State.busy, hp]
  cases access_cases a s with
  | same r ht => exact ⟨s.ie, s.done, s.covr, s.wign, r, ht⟩
  | write addr v r hw h4 ht =>
    rw [ht]
    cases write_cases (regAt addr) v s with
    | start _ hi _ => rw [hp] at hi; cases hi
    | store _ hi => rw [hp] at hi; cases hi
    | covr _ _ ht | wign _ _ ht | ie _ _ ht | status _ ht | same _ ht => rw [ht]; exact ⟨_, _, _, _, r, rfl⟩
    | reset hr hv ht => subst hw; rw [regAt_ctrl hr, softResets_writeAccess v hv] at ha; cases ha

end Sys2Proof.Machine
end

