-- ==== Sys2Proof/Laws/Hotp.lean ====
section
/-! SUPPORT. HMAC, truncation, the code text and the drift window, in the terms of the claims. -/

namespace Sys2Proof.Machine

/-! ### The MAC -/

@[simp] theorem be32Bytes_length (w : Word) : (be32Bytes w).length = 4 := rfl

@[simp] theorem sha1_length (m : List Byte) : (sha1 m).length = 20 := by simp [sha1]

@[simp] theorem counterMac_length (key : List Byte) (c : DWord) : (counterMac key c).length = 20 :=
  sha1_length _

theorem keyBytes_length {s : State} (h : s.klen.toNat ≤ 64) : s.keyBytes.length = s.klen.toNat := by
  simp [State.keyBytes, h]

theorem candBytes_length {s : State} (h : s.clen.toNat ≤ 12) : s.candBytes.length = s.clen.toNat := by
  simp [State.candBytes, h]

/-- The key block XORed with a pad byte, byte by byte (spec/41_hmac_hotp.md R147, R148). -/
theorem keyBlock_xor {s : State} (h : s.klen.toNat ≤ 64) (x : Byte) :
    (keyBlock s.keyBytes).map (· ^^^ x) = s.paddedKey x := by
  have hl := keyBytes_length h
  apply List.ext_getElem
  · simp [keyBlock, State.paddedKey, hl, h]
  · intro i h1 h2
    simp only [State.paddedKey, List.length_ofFn] at h2
    simp only [State.paddedKey, List.getElem_map, List.getElem_ofFn, keyBlock, List.getElem_append, hl]
    split
    · simp [State.keyBytes, takeBytes]
    · simp

/-- The MAC the commands compute is the MAC of the claims. -/
theorem counterMac_eq {s : State} (h : s.klen.toNat ≤ 64) (c : DWord) :
    counterMac s.keyBytes c = s.macOf c := by
  simp only [counterMac, hmacSha1, State.macOf, ← be64Bytes_eq, keyBlock_xor h]

/-! ### Truncation and the code text -/

theorem append_toNat {n m : Nat} (x : BitVec n) (y : BitVec m) :
    (x ++ y).toNat = x.toNat * 2 ^ m + y.toNat := by
  rw [BitVec.toNat_append, ← Nat.shiftLeft_add_eq_or_of_lt y.isLt, Nat.shiftLeft_eq]

theorem be32_toNat (bytes : List Byte) (o : Nat) :
    (be32 bytes o).toNat =
      (bytes.getD o 0).toNat * 2 ^ 24 + (bytes.getD (o + 1) 0).toNat * 2 ^ 16 +
        (bytes.getD (o + 2) 0).toNat * 2 ^ 8 + (bytes.getD (o + 3) 0).toNat := by
  rw [be32, append_toNat, append_toNat, append_toNat]
  omega

theorem truncOffset_toNat (mac : List Byte) : (truncOffset mac).toNat = (mac.getD 19 0).toNat % 16 := by
  simp [truncOffset]

theorem truncValue_toNat (mac : List Byte) :
    (truncValue mac).toNat = (be32 mac (truncOffset mac).toNat).toNat % 2 ^ 31 := by
  rw [truncValue, BitVec.extractLsb'_toNat, Nat.shiftRight_zero]

theorem codeValue_toNat (p : BitVec 31) (d : Nat) : (codeValue p d).toNat = p.toNat % 10 ^ d := by
  rw [codeValue, BitVec.toNat_ofNat]
  exact Nat.mod_eq_of_lt (lt_of_le_of_lt (Nat.mod_le _ _) p.isLt)

@[simp] theorem codeText_length (c : BitVec 31) (d : Nat) : (codeText c d).length = d := by simp [codeText]

@[simp] theorem hotpText_length (key : List Byte) (c : DWord) (d : Nat) : (hotpText key c d).length = d :=
  codeText_length _ _

theorem digit_toNat (n : Nat) : (BitVec.ofNat 8 (0x30 + n % 10)).toNat = 0x30 + n % 10 := by
  rw [BitVec.toNat_ofNat, Nat.mod_eq_of_lt (by omega)]

theorem codeText_getD (c : BitVec 31) (d k : Nat) (h : k < d) :
    ((codeText c d).getD k 0).toNat = 0x30 + c.toNat / 10 ^ (d - 1 - k) % 10 := by
  simp only [codeText, List.getD, List.getElem?_map, List.getElem?_range, h, Option.map_some,
    Option.getD_some]
  exact digit_toNat _

/-- Reading the digits of `c` from position `d` down adds them to the digits above. -/
theorem digits_foldl (c d : Nat) :
    ((List.range d).map fun k => BitVec.ofNat 8 (0x30 + c / 10 ^ (d - 1 - k) % 10)).foldl
      (fun v ch => 10 * v + (ch.toNat - 0x30)) (c / 10 ^ d) = c := by
  induction d with
  | zero => simp
  | succ d ih =>
    rw [List.range_succ_eq_map, List.map_cons, List.foldl_cons, List.map_map]
    have h2 : 10 * (c / 10 ^ (d + 1)) +
        ((BitVec.ofNat 8 (0x30 + c / 10 ^ (d + 1 - 1 - 0) % 10)).toNat - 0x30) = c / 10 ^ d := by
      rw [digit_toNat, Nat.add_sub_cancel_left, show d + 1 - 1 - 0 = d by omega, pow_succ,
        ← Nat.div_div_eq_div_mul]
      omega
    have h3 : ((fun k => BitVec.ofNat 8 (0x30 + c / 10 ^ (d + 1 - 1 - k) % 10)) ∘ Nat.succ) =
        fun k => BitVec.ofNat 8 (0x30 + c / 10 ^ (d - 1 - k) % 10) := by
      funext k
      simp only [Function.comp]
      rw [show d + 1 - 1 - (k + 1) = d - 1 - k by omega]
    rw [h2, h3]
    exact ih

/-! ### The drift window -/

/-- The byte comparison says whether the texts are equal (spec/42_totp.md R185, R186). -/
theorem textDiff_eq_zero_iff {x y : List Byte} (h : x.length = y.length) : textDiff x y = 0 ↔ x = y := by
  induction x generalizing y with
  | nil => cases y <;> simp [textDiff] at h ⊢
  | cons a x ih =>
    cases y with
    | nil => simp at h
    | cons b y =>
      simp only [textDiff, List.cons.injEq]
      rw [← ih (by simpa using h), show (0 : Byte) = 0#8 from rfl, BitVec.or_eq_zero_iff,
        BitVec.xor_eq_zero_iff]

theorem anyMember_iff {cand key : List Byte} {d : Nat} (h : cand.length = d) (xs : List Nat) :
    anyMember cand key d xs = true ↔ ∃ x ∈ xs, cand = hotpText key (BitVec.ofNat 64 x) d := by
  induction xs with
  | nil => simp [anyMember]
  | cons x xs ih =>
    simp only [anyMember, Bool.or_eq_true, ih, beq_iff_eq, List.mem_cons, exists_eq_or_imp]
    rw [textDiff_eq_zero_iff (by rw [h, hotpText_length])]

/-- The members of the window (spec/42_totp.md R183, R184). -/
theorem mem_windowCounters {c w x : Nat} :
    x ∈ windowCounters c w ↔
      ∃ k : Int, -(w : Int) ≤ k ∧ k ≤ w ∧ 0 ≤ (c : Int) + k ∧ (x : Int) = c + k := by
  simp only [windowCounters, List.mem_map, List.mem_filter, List.mem_range, decide_eq_true_eq]
  constructor
  · rintro ⟨j, ⟨h1, h2⟩, rfl⟩
    exact ⟨(j : Int) - w, by omega, by omega, by omega, by omega⟩
  · rintro ⟨k, h1, h2, h3, h4⟩
    exact ⟨(k + w).toNat, ⟨by omega, by omega⟩, by omega⟩

theorem timeCounter_toNat {s : State} (ht : s.LegalTimeStep) :
    s.timeCounter.toNat = s.time.toNat / s.stepReg.toNat := by
  rw [State.timeCounter, BitVec.toNat_ofNat, Nat.mod_eq_of_lt]
  have := Nat.div_le_self s.time.toNat s.stepReg.toNat
  have := ht.2
  omega

/-- The candidate matches a counter when it is the code text of that counter (spec/42_totp.md R185). -/
theorem matchesAt_iff {s : State} (hk : s.klen.toNat ≤ 64) (hc : s.LegalConfig) (x : DWord) :
    s.MatchesAt x ↔
      s.clen.toNat = s.digits.toNat ∧ s.candBytes = hotpText s.keyBytes x s.digits.toNat := by
  unfold State.MatchesAt
  refine and_congr_right fun hd => ?_
  have h12 : s.digits.toNat ≤ 12 := by have := hc.2; omega
  rw [show exec .hotp { s with counter := x } = _ from execHotp_ok (s := { s with counter := x }) hk hc]
  constructor
  · rintro ⟨t, ht, -, h⟩
    cases ht
    apply List.ext_getElem (by rw [candBytes_length (by omega), hotpText_length, hd])
    intro i h1 h2
    have hi : i < s.digits.toNat := by simpa using h2
    have := h ⟨i, by omega⟩ hi
    simp only [State.candBytes, takeBytes, List.getElem_take, Vector.getElem_toList]
    refine Eq.trans this ?_
    simp only [commit, withHotpResults, Fin.getElem_fin, fillBuffer_getElem _ _ _ (show i < 12 by omega)]
    exact List.getD_eq_getElem _ _ (by simpa using hi)
  · intro h
    refine ⟨_, rfl, rfl, fun i hi => ?_⟩
    have h1 : i.val < s.candBytes.length := by rw [candBytes_length (by omega), hd]; exact hi
    have h2 : s.cand[i] = s.candBytes[i.val] := by simp [State.candBytes, takeBytes]
    simp only [h2, h, commit, withHotpResults, Fin.getElem_fin, fillBuffer_getElem _ _ _ i.isLt]
    exact (List.getD_eq_getElem _ _ (by simpa using hi)).symm

/-- The answer of `validate` (spec/42_totp.md R185). -/
theorem candidateValid_iff {s : State} (hk : s.klen.toNat ≤ 64) (hl : s.clen.toNat ≤ 12)
    (hc : s.LegalConfig) (ht : s.LegalTimeStep) : s.candidateValid = true ↔ s.Matches := by
  simp only [State.candidateValid, State.Matches, matchesAt_iff hk hc]
  split
  · next h => simp [h]
  · next h =>
    have h : s.clen.toNat = s.digits.toNat := by omega
    rw [anyMember_iff (by rw [candBytes_length hl, h])]
    simp only [mem_windowCounters, timeCounter_toNat ht, h, true_and]
    constructor
    · rintro ⟨x, ⟨k, h1, h2, h3, h4⟩, h5⟩
      exact ⟨k, h1, h2, h3, by rw [← h4, BitVec.ofInt_natCast]; exact h5⟩
    · rintro ⟨k, h1, h2, h3, h4⟩
      refine ⟨(((s.time.toNat / s.stepReg.toNat : Nat) : Int) + k).toNat, ⟨k, h1, h2, h3, by omega⟩, ?_⟩
      rw [h4, ← BitVec.ofInt_natCast, Int.toNat_of_nonneg h3]

end Sys2Proof.Machine
end

