-- ==== Sys2Proof/Laws/PerInstr.lean ====
section
/-! SUPPORT. Statements made of every command, one lemma a constructor. -/

/-- The decoder reads the word of a well-formed command back as the command. -/
def Sys2Proof.Laws.DecodeEncode.Statement (i : Sys2Proof.Instr) : Prop :=
  i.WellFormed → Sys2Proof.decodeWord (Sys2Proof.encode i) = i

namespace Sys2Proof.Laws.DecodeEncode

theorem nop : Statement .nop := fun _ => by decide
theorem b32Enc : Statement .b32Enc := fun _ => by decide
theorem b32Dec : Statement .b32Dec := fun _ => by decide
theorem hmac : Statement .hmac := fun _ => by decide
theorem tstep : Statement .tstep := fun _ => by decide
theorem hotp : Statement .hotp := fun _ => by decide
theorem totp : Statement .totp := fun _ => by decide
theorem verify : Statement .verify := fun _ => by decide
theorem illegal (w : Word) : Statement (.illegal w) := fun h =>
  decodeWord_illegal w ((illegalWord_iff w).mp h)

end Sys2Proof.Laws.DecodeEncode
end

