-- ==== Sys2Proof/Laws/Sha1.lean ====
section
/-! SUPPORT. SHA-1: the padded length, the blocks in order, the schedule and the rounds, term by term. -/

namespace Sys2Proof.Machine

theorem rotl_eq (n : Nat) (x : Word) (h : n < 32) : rotl n x = x.rotateLeft n := by
  rw [rotl, BitVec.rotateLeft_def, Nat.mod_eq_of_lt h]

/-- A padded message is a whole number of blocks (spec/41_hmac_hotp.md R141). -/
theorem sha1Pad_length (m : List Byte) :
    (sha1Pad m).length = m.length + 9 + (119 - m.length % 64) % 64 := by
  simp [sha1Pad]
  omega

/-! ### The schedule -/

/-- The word that follows the words `ws`, newest first. -/
def nextWord (ws : List Word) : Word :=
  rotl 1 (ws.getD 2 0 ^^^ ws.getD 7 0 ^^^ ws.getD 13 0 ^^^ ws.getD 15 0)

theorem extendSchedule_succ (n : Nat) (ws : List Word) :
    extendSchedule (n + 1) ws = nextWord (extendSchedule n ws) :: extendSchedule n ws := by
  induction n generalizing ws with
  | zero => rfl
  | succ n ih => exact ih (nextWord ws :: ws)

@[simp] theorem extendSchedule_length (n : Nat) (ws : List Word) :
    (extendSchedule n ws).length = n + ws.length := by
  induction n with
  | zero => simp [extendSchedule]
  | succ n ih => rw [extendSchedule_succ, List.length_cons, ih]; omega

/-- Extending further only puts words in front. -/
theorem drop_extendSchedule (m n : Nat) (ws : List Word) :
    (extendSchedule (m + n) ws).drop m = extendSchedule n ws := by
  induction m with
  | zero => simp
  | succ m ih => rw [Nat.add_right_comm, extendSchedule_succ, List.drop_succ_cons, ih]

@[simp] theorem blockWords_length (block : List Byte) : (blockWords block).length = 16 := by
  simp [blockWords]

/-- Word `t` of the schedule is word `j` of a shorter extension, for `t = 15 + n - j`. -/
theorem schedule_getD (block : List Byte) (n j : Nat) (hn : n ≤ 64) (hj : j ≤ 15 + n) :
    (schedule block).getD (15 + n - j) 0 = (extendSchedule n (blockWords block).reverse).getD j 0 := by
  have hd := drop_extendSchedule (64 - n) n (blockWords block).reverse
  rw [Nat.sub_add_cancel hn] at hd
  rw [schedule, ← hd, List.getD_eq_getElem?_getD, List.getD_eq_getElem?_getD, List.getElem?_drop,
    List.getElem?_reverse (by simp; omega)]
  simp only [extendSchedule_length, List.length_reverse, blockWords_length]
  rw [show 64 + 16 - 1 - (15 + n - j) = 64 - n + j by omega]

/-! ### The rounds -/

theorem sha1Rounds_append (t : Nat) (xs ys : List Word) (h : HashState) :
    sha1Rounds t (xs ++ ys) h = sha1Rounds (t + xs.length) ys (sha1Rounds t xs h) := by
  induction xs generalizing t h with
  | nil => rfl
  | cons x xs ih =>
    rw [List.cons_append, sha1Rounds, ih, sha1Rounds, List.length_cons, Nat.add_assoc, Nat.add_comm 1]

/-- The state before round `t + 1` is that of round `t` on the state before it. -/
theorem sha1Rounds_take_succ (ws : List Word) (h : HashState) (t : Nat) (ht : t < ws.length) :
    sha1Rounds 0 (ws.take (t + 1)) h = sha1Round (sha1Rounds 0 (ws.take t) h) t (ws.getD t 0) := by
  rw [List.take_succ_eq_append_getElem ht, sha1Rounds_append, List.length_take,
    Nat.min_eq_left (Nat.le_of_lt ht), Nat.zero_add]
  simp [sha1Rounds, List.getD, ht]

end Sys2Proof.Machine
end

