-- ==== Sys2Proof/Tests/Slice0.lean ====
section
/-! SUPPORT. Tests of the model. The expected results are those of spec/95_test_vectors.md, cited by the
vector's name, or the words and tables of the rule that is cited. The last part has a witness for the
hypotheses of each statement. -/

namespace Sys2Proof.Machine.Tests

/-! ### Helpers -/

/-- The next state, if there is one. -/
def nextOf (r : Result) : Option State :=
  match r with
  | .next s => some s
  | .fault _ => none
  | .refused _ => none

/-- The refusal, if there is one. -/
def refusalOf (r : Result) : Option Refusal :=
  match r with
  | .next _ => none
  | .fault _ => none
  | .refused x => some x

/-- "12345678901234567890", the RFC key. -/
def rfcKey : List Byte :=
  [0x31, 0x32, 0x33, 0x34, 0x35, 0x36, 0x37, 0x38, 0x39, 0x30,
   0x31, 0x32, 0x33, 0x34, 0x35, 0x36, 0x37, 0x38, 0x39, 0x30]

/-- The state after reset and `ldkey` of the RFC key. -/
def keyed : State := { State.reset with key := fillBuffer 64 rfcKey, klen := 20 }

/-- The state after reset with the text in TEXT, and KEY = aa aa aa. -/
def texted (text : List Byte) : State :=
  { State.reset with
    key := fillBuffer 64 [0xAA, 0xAA, 0xAA], klen := 3
    text := fillBuffer 128 text, tlen := BitVec.ofNat 8 text.length }

/-- `keyed` with a candidate and the drift table's time, 1 000 000 020. -/
def drifted (cand : List Byte) : State :=
  { keyed with time := 1000000020, cand := fillBuffer 12 cand, clen := BitVec.ofNat 4 cand.length }

/-! ### Well-formedness: the check refuses an illegal command with a legal word -/

theorem test_wellFormed_refuses_illegal_with_legal_word :
    ∀ w : Fin 8, ¬ (Instr.illegal (BitVec.ofNat 32 w.val)).WellFormed := by decide

theorem test_wellFormed_accepts_first_and_last_illegal_word :
    (Instr.illegal 0x00000008).WellFormed ∧ (Instr.illegal 0xFFFFFFFF).WellFormed := by decide

/-! ### Decoding: words written out from R90, R92 and R93, bits 31:4 and then OP -/

theorem test_decode_nop : decodeWord (0#28 ++ 0b0000#4) = .nop := by decide
theorem test_decode_b32Enc : decodeWord (0#28 ++ 0b0001#4) = .b32Enc := by decide
theorem test_decode_b32Dec : decodeWord (0#28 ++ 0b0010#4) = .b32Dec := by decide
theorem test_decode_hmac : decodeWord (0#28 ++ 0b0011#4) = .hmac := by decide
theorem test_decode_tstep : decodeWord (0#28 ++ 0b0100#4) = .tstep := by decide
theorem test_decode_hotp : decodeWord (0#28 ++ 0b0101#4) = .hotp := by decide
theorem test_decode_totp : decodeWord (0#28 ++ 0b0110#4) = .totp := by decide
theorem test_decode_verify : decodeWord (0#28 ++ 0b0111#4) = .verify := by decide

theorem test_decode_reserved_op : decodeWord (0#28 ++ 0b1000#4) = .illegal 0x00000008 := by decide
theorem test_decode_bit4_set : decodeWord (1#28 ++ 0b0000#4) = .illegal 0x00000010 := by decide

theorem test_decode_rejects_three_lanes : decode [0x01, 0x00, 0x00] = .error (.notOneWord 3) := by rfl

theorem test_decodeTableWord : decodeTableWord 32 7 = some .verify ∧ decodeTableWord 4 7 = some .verify := by
  decide

/-! ### The step runs a placed command as the first one after reset -/

theorem test_first_step_after_reset_commits_nop :
    (nextOf (step (State.reset.withFetchWord 32 0))).map State.statusWord = some 0x00000002 := by
  decide +kernel

/-- V-ERR-4. -/
theorem test_first_step_after_reset_commits_illegal :
    (nextOf (step (State.reset.withFetchWord 32 0x80000003))).map State.statusWord = some 0x00000302 := by
  decide +kernel

/-! ### One command each -/

/-- V-NOP-2: VALID is cleared. -/
theorem test_nop : (nextOf (exec .nop { keyed with valid := true, counter := 1 })).map
    (fun t => (t.statusWord, t.counter)) = some (0x00000002, 1) := by decide +kernel

/-- V-ENC-11: the words "AAAQ", "EAYE", and the text after them cleared. -/
theorem test_b32Enc :
    (nextOf (exec .b32Enc { texted (List.replicate 40 0x5A) with
        key := fillBuffer 64 [0x00, 0x01, 0x02, 0x03, 0x04], klen := 5 })).map
      (fun t => (t.statusWord, t.tlen, bufferWord t.text 0, bufferWord t.text 1, bufferWord t.text 2)) =
    some (0x00000002, 8, 0x51414141, 0x45594145, 0) := by decide +kernel

/-- V-ENC-14. -/
theorem test_b32Enc_key_too_long :
    (nextOf (exec .b32Enc { texted [0x58, 0x59] with klen := 65 })).map
      (fun t => (t.statusWord, t.tlen, t.textBytes)) = some (0x00000402, 2, [0x58, 0x59]) := by
  decide +kernel

/-- V-DEC-8: "MZXW6YT", leftover bits dropped. -/
theorem test_b32Dec :
    (nextOf (exec .b32Dec (texted [0x4D, 0x5A, 0x58, 0x57, 0x36, 0x59, 0x54]))).map
      (fun t => (t.statusWord, t.keyBytes)) = some (0x00000002, [0x66, 0x6f, 0x6f, 0x62]) := by
  decide +kernel

/-- V-DEC-18: "MZ=XQ". -/
theorem test_b32Dec_inner_padding :
    (nextOf (exec .b32Dec (texted [0x4D, 0x5A, 0x3D, 0x58, 0x51]))).map
      (fun t => (t.statusWord, t.keyBytes)) = some (0x00000102, [0xAA, 0xAA, 0xAA]) := by
  decide +kernel

/-- V-TS-7. -/
theorem test_tstep :
    (nextOf (exec .tstep { State.reset with time := 0x0000010000000000, stepReg := 7 })).map
      (fun t => (t.statusWord, t.counter)) = some (0x00000002, 0x0000002492492492) := by
  decide +kernel

/-- V-TS-8: a negative time. -/
theorem test_tstep_negative_time :
    (nextOf (exec .tstep { State.reset with time := 0x8000000000000000 })).map State.statusWord =
    some 0x00000202 := by decide +kernel

/-- V-HOTP-11: capacity before parameters. -/
theorem test_hotp_error_priority :
    (nextOf (exec .hotp { keyed with klen := 65, digits := 0 })).map State.statusWord =
    some 0x00000402 := by decide +kernel

/-! ### The bus -/

/-- V-BUS-7. -/
theorem test_cfg_reserved_bits :
    (busRead 0x010 (busWrite 0x010 0b1111 0xFFFFFFFF State.reset)).response =
      some ⟨false, some 0x0000FF3F⟩ := by decide +kernel

/-- V-BUS-12. -/
theorem test_key_lanes :
    (busWrite 0x10C 0b1111 0xA1B2C3D4 State.reset).key.toList.drop 12 =
      [0xD4, 0xC3, 0xB2, 0xA1] ++ List.replicate 48 0 := by decide +kernel

/-- V-BUS-4. -/
theorem test_partial_write :
    (busWrite 0x010 0b0011 0x00000005 State.reset).cfgWord = 0x00000106 ∧
    (busWrite 0x010 0b0011 0x00000005 State.reset).response = some ⟨true, none⟩ := by decide +kernel

/-- V-HAZ-2, the two dropped writes. -/
theorem test_dropped_writes :
    (busWrite 0x020 0b1111 7 (busWrite 0x00C 0b1111 0 (start .hotp State.reset))).statusWord = 0x00000019 ∧
    (busWrite 0x020 0b1111 7 (busWrite 0x00C 0b1111 0 (start .hotp State.reset))).counter = 0 := by
  decide +kernel

/-- V-RST-2. -/
theorem test_soft_reset_clears_ie :
    { busWrite 0x004 0b1111 0x00000003 { keyed with ie := true } with response := none } = State.reset := by
  decide +kernel

theorem test_access_during_reset_is_refused :
    refusalOf (step { State.reset with rstLow := true, inbox := [rd .status] }) =
      some .accessDuringReset := by decide +kernel

/-! ### Witnesses: for each statement with hypotheses, and each clause of it, states and operands that meet
them all -/

/-- After reset, with one write and then the engine's turn to come. -/
def writing (addr : BitVec 12) (v : Word) : State :=
  { State.reset with inbox := [.access (writeAccess addr v), .engineTurn] }

/-- The same while a command runs. -/
def busyWriting (addr : BitVec 12) (v : Word) : State := { writing addr v with phase := .busy .hotp }

/-- A command runs and the engine has its turn. -/
def running (op : Instr) : State := { keyed with phase := .busy op, inbox := [.engineTurn] }

/-- For DecodeOfEncodeGivesTheCommandBack and PlacedWordRunsInTheNextStep. -/
theorem witness_wellFormed :
    Instr.nop.WellFormed ∧ Instr.b32Enc.WellFormed ∧ Instr.b32Dec.WellFormed ∧ Instr.hmac.WellFormed ∧
    Instr.tstep.WellFormed ∧ Instr.hotp.WellFormed ∧ Instr.totp.WellFormed ∧ Instr.verify.WellFormed ∧
    (Instr.illegal 0x00000008).WellFormed ∧ (Instr.illegal 0xFFFFFFFF).WellFormed := by decide

/-- For EveryWordDecodesToExactlyOneCommand, at the first legal and the last illegal word. -/
theorem witness_encode : encode .nop = 0x00000000 ∧ encode (.illegal 0xFFFFFFFF) = 0xFFFFFFFF := by decide

theorem witness_StepOfTheEngineRunsTheCommand :
    ((running .hotp).phase = .busy .hotp ∧ (running .hotp).inbox = .engineTurn :: []) ∧
    ({ running .hotp with inbox := [] }.phase = .busy .hotp ∧ { running .hotp with inbox := [] }.inbox = []) ∧
    ({ keyed with inbox := [.engineTurn] }.phase = .idle ∧
      { keyed with inbox := [.engineTurn] }.inbox = .engineTurn :: []) ∧
    (keyed.phase = .idle ∧ keyed.inbox = []) := by decide

/-- Also for the second clause of InterruptIsClearedByEachListedEvent. -/
theorem witness_CmdWriteStartsTheDecodedCommand :
    (writing 0x00C 7).busy = false ∧ (writing 0x00C 7).rstLow = false ∧
    (writing 0x00C 7).inbox = .access (writeAccess 0x00C 7) :: [.engineTurn] := by decide

theorem witness_CmdWriteWhileBusy_dropped :
    (busyWriting 0x00C 0).busy = true ∧ (busyWriting 0x00C 0).rstLow = false ∧
    (busyWriting 0x00C 0).inbox = .access (writeAccess 0x00C 0) :: [.engineTurn] := by decide

theorem witness_CmdWriteWhileBusy_cleared :
    ∃ s t : State, step s = .next t ∧ s.covr = true ∧ t.covr = false :=
  ⟨{ writing 0x008 8 with covr := true }, _, rfl, rfl, rfl⟩

theorem witness_CmdWriteWhileBusy_reset :
    ∃ s t : State, step s = .next t ∧ s.covr = true ∧ t.covr = false ∧ s.ResetsNext :=
  ⟨{ State.reset with covr := true, inbox := [.resetAssert false] }, _, rfl, rfl, rfl, _, _, rfl, .inl ⟨_, rfl⟩⟩

/-- The ends of the four ranges of operand offsets. Also for OperandWriteReadsBackAndNothingElseChanges. -/
theorem witness_operandOffset :
    operandOffset 0x010 = true ∧ operandOffset 0x030 = true ∧ operandOffset 0x050 = true ∧
    operandOffset 0x058 = true ∧ operandOffset 0x100 = true ∧ operandOffset 0x13C = true ∧
    operandOffset 0x200 = true ∧ operandOffset 0x27C = true := by decide

theorem test_operandOffset_beyond_the_ends :
    operandOffset 0x00C = false ∧ operandOffset 0x034 = false ∧ operandOffset 0x04C = false ∧
    operandOffset 0x05C = false ∧ operandOffset 0x0FC = false ∧ operandOffset 0x140 = false ∧
    operandOffset 0x1FC = false ∧ operandOffset 0x280 = false ∧ operandOffset 0x012 = false := by decide

theorem witness_OperandWriteWhileBusy_dropped :
    operandOffset 0x27C = true ∧ (busyWriting 0x27C 7).busy = true ∧ (busyWriting 0x27C 7).rstLow = false ∧
    (busyWriting 0x27C 7).inbox = .access (writeAccess 0x27C 7) :: [.engineTurn] := by decide

theorem witness_OperandWriteWhileBusy_cleared :
    ∃ s t : State, step s = .next t ∧ s.wign = true ∧ t.wign = false :=
  ⟨{ writing 0x008 0x10 with wign := true }, _, rfl, rfl, rfl⟩

theorem witness_BadAccess_misalignedWrite :
    (writing 0x012 5).rstLow = false ∧
    (writing 0x012 5).inbox = .access (writeAccess 0x012 5) :: [.engineTurn] ∧
    (writeAccess 0x012 5).dir = .write ∧ (writeAccess 0x012 5).addr.toNat % 4 ≠ 0 := by decide

theorem witness_BadAccess_partialWrite :
    ∃ (s : State) (a : BusAccess) (rest : List Event),
      s.rstLow = false ∧ s.inbox = .access a :: rest ∧ a.dir = .write ∧ a.addr.toNat % 4 = 0 ∧
        a.strb ≠ 0b1111 :=
  ⟨{ State.reset with inbox := [.access ⟨.write, 0x010, 5, 0b0011⟩] }, ⟨.write, 0x010, 5, 0b0011⟩, [],
    by decide⟩

theorem witness_BadAccess_misalignedRead :
    ∃ (s : State) (a : BusAccess) (rest : List Event),
      s.rstLow = false ∧ s.inbox = .access a :: rest ∧ a.dir = .read ∧ a.addr.toNat % 4 ≠ 0 :=
  ⟨{ State.reset with inbox := [.access ⟨.read, 0xFFF, 0, 0⟩] }, ⟨.read, 0xFFF, 0, 0⟩, [], by decide⟩

theorem witness_BadAccess_alignedRead :
    ∃ a : BusAccess, a.dir = .read ∧ a.addr.toNat % 4 = 0 ∧ a.strb = 0 :=
  ⟨⟨.read, 0xFFC, 0, 0⟩, by decide⟩

theorem witness_ReadHasNoSideEffect :
    ∃ (s : State) (rest : List Event),
      (0xFFC : BitVec 12).toNat % 4 = 0 ∧ s.rstLow = false ∧ s.busy = true ∧
        s.inbox = .access ⟨.read, 0xFFC, 0, 0⟩ :: rest :=
  ⟨{ running .hotp with inbox := [.access ⟨.read, 0xFFC, 0, 0⟩] }, [], by decide⟩

theorem witness_StatusReadsAndClearsByBit :
    (busyWriting 0x008 0x1A).rstLow = false ∧
    (busyWriting 0x008 0x1A).inbox = .access (writeAccess 0x008 0x1A) :: [.engineTurn] := by decide

/-- The ends of the ranges that ignore writes. -/
theorem witness_ReservedAndReadOnly_offsets :
    ignoredOffset 0x000 = true ∧ ignoredOffset 0x034 = true ∧ ignoredOffset 0x03C = true ∧
    ignoredOffset 0x040 = true ∧ ignoredOffset 0x048 = true ∧ ignoredOffset 0x04C = true ∧
    ignoredOffset 0x05C = true ∧ ignoredOffset 0x060 = true ∧ ignoredOffset 0x070 = true ∧
    ignoredOffset 0x074 = true ∧ ignoredOffset 0x0FC = true ∧ ignoredOffset 0x140 = true ∧
    ignoredOffset 0x1FC = true ∧ ignoredOffset 0x280 = true ∧ ignoredOffset 0xFFC = true := by decide

theorem witness_ReservedAndReadOnly_write :
    ignoredOffset 0xFFC = true ∧ (writing 0xFFC 1).rstLow = false ∧
    (writing 0xFFC 1).inbox = .access (writeAccess 0xFFC 1) :: [.engineTurn] := by decide

theorem witness_OperandWriteReadsBack :
    operandOffset 0x010 = true ∧ (writing 0x010 0xFFFFFFFF).busy = false ∧
    (writing 0x010 0xFFFFFFFF).rstLow = false ∧
    (writing 0x010 0xFFFFFFFF).inbox = .access (writeAccess 0x010 0xFFFFFFFF) :: [.engineTurn] ∧
    (0xFFC : BitVec 12).toNat % 4 = 0 ∧ (0xFFC : BitVec 12) ≠ 0x010 := by decide

theorem witness_BufferWordHoldsItsFourLanes : State.reset.busy = false := by decide

theorem witness_AddressMapAndOffsetsAgree :
    Reg.text 31 ≠ .reserved ∧ regAt 0x27C ≠ .reserved ∧ misaligned 0x27C = false := by decide

/-- Also for the fourth clause of InterruptIsClearedByEachListedEvent. -/
theorem witness_SoftReset :
    (0x00000003 : Word).getLsbD 1 = true ∧ (busyWriting 0x004 3).rstLow = false ∧
    (busyWriting 0x004 3).inbox = .access (writeAccess 0x004 3) :: [.engineTurn] ∧
    (busyWriting 0x004 3).ResetsNext :=
  ⟨by decide, by decide, by decide, _, _, rfl, .inr ⟨_, rfl, by decide⟩⟩

/-- The reset state, but for the level of rst_n and the model's own fields, has the values of R51. -/
theorem reset_atReset (rstLow : Bool) (inbox : List Event) (response : Option Response) (drawn : Nat) :
    { State.reset with rstLow := rstLow, inbox := inbox, response := response, drawn := drawn }.AtReset := by
  constructor <;> first | rfl | (intro i; simp [State.reset])

/-- Also for the fifth clause of InterruptIsClearedByEachListedEvent. -/
theorem witness_HardwareReset_falls :
    { running .hotp with inbox := [.resetAssert true] }.inbox = .resetAssert true :: [] := by decide

theorem witness_HardwareReset_rises :
    ∃ (s : State) (rest : List Event), s.AtReset ∧ s.rstLow = true ∧ s.inbox = .resetRelease :: rest :=
  ⟨_, [], reset_atReset true [.resetRelease] none 0, rfl, rfl⟩

/-- Also for the third clause of InterruptIsClearedByEachListedEvent, with bit 0 clear. -/
theorem witness_CtrlWrite :
    (0xFFFFFFFC : Word).getLsbD 1 = false ∧ (0xFFFFFFFC : Word).getLsbD 0 = false ∧
    (busyWriting 0x004 0xFFFFFFFC).rstLow = false ∧
    (busyWriting 0x004 0xFFFFFFFC).inbox = .access (writeAccess 0x004 0xFFFFFFFC) :: [.engineTurn] := by
  decide

theorem witness_InterruptIsEnableAndDone :
    ∃ (s : State) (rest : List Event),
      (1 : Word).getLsbD 0 = true ∧ (1 : Word).getLsbD 1 = false ∧ s.done = true ∧ s.rstLow = false ∧
        s.inbox = .access (writeAccess 0x004 1) :: rest :=
  ⟨{ writing 0x004 1 with done := true }, [.engineTurn], by decide⟩

theorem witness_InterruptIsCleared_byStatus :
    ∃ (s : State) (rest : List Event),
      (2 : Word).getLsbD 1 = true ∧ s.irq = true ∧ s.rstLow = false ∧
        s.inbox = .access (writeAccess 0x008 2) :: rest :=
  ⟨{ writing 0x008 2 with done := true, ie := true }, [.engineTurn], by decide⟩

theorem witness_StepOfTheHostIsItsAccess :
    (busyWriting 0x008 2).rstLow = false ∧
    (busyWriting 0x008 2).inbox = .access (writeAccess 0x008 2) :: [.engineTurn] := by decide

theorem witness_BusyBegins :
    ∃ s t : State, step s = .next t ∧ s.busy = false ∧ t.busy = true := ⟨writing 0x00C 7, _, rfl, rfl, rfl⟩

/-- Also for a commit that sets DONE. -/
theorem witness_BusyEnds_byCommit :
    ∃ s t : State, step s = .next t ∧ s.busy = true ∧ t.busy = false ∧ s.done = false ∧ t.done = true :=
  ⟨running .nop, _, rfl, rfl, rfl, rfl, rfl⟩

theorem witness_BusyEnds_byReset :
    ∃ s t : State, step s = .next t ∧ s.busy = true ∧ t.busy = false ∧ s.ResetsNext :=
  ⟨busyWriting 0x004 2, _, rfl, rfl, rfl, _, _, rfl, .inr ⟨_, rfl, by decide⟩⟩

theorem witness_DoneIsCleared_byStatus :
    ∃ s t : State, step s = .next t ∧ s.done = true ∧ t.done = false :=
  ⟨{ writing 0x008 2 with done := true }, _, rfl, rfl, rfl⟩

theorem witness_DoneIsCleared_byStart :
    ∃ s t : State, step s = .next t ∧ s.done = true ∧ t.done = false ∧ s.busy = false :=
  ⟨{ writing 0x00C 8 with done := true }, _, rfl, rfl, rfl, rfl⟩

theorem witness_DoneIsCleared_byReset :
    ∃ s t : State, step s = .next t ∧ s.done = true ∧ t.done = false ∧ s.ResetsNext :=
  ⟨{ writing 0x004 2 with done := true }, _, rfl, rfl, rfl, _, _, rfl, .inr ⟨_, rfl, by decide⟩⟩

theorem witness_EveryResetGivesTheListedValues :
    ∃ t s : State, t = softReset s ∧ s.key ≠ t.key :=
  ⟨_, keyed, rfl, by decide +kernel⟩

theorem witness_OnlyAnAccessDuringReset_refused :
    ∃ s : State, s.rstLow = true ∧ ∃ a rest, s.inbox = .access a :: rest :=
  ⟨{ writing 0x00C 0 with rstLow := true }, rfl, _, _, rfl⟩

theorem witness_OnlyAnAccessDuringReset_next :
    ¬ ((running .hotp).rstLow = true ∧ ∃ a rest, (running .hotp).inbox = .access a :: rest) :=
  fun h => absurd h.1 (by decide)

/-! ### Witnesses for the commands -/

theorem witness_NopCommitsOk :
    State.reset.busy = false ∧ (running .hotp).busy = true ∧ { State.reset with ie := true }.ie = true := by decide

/-- The least and the greatest illegal OP, and a word with bit 31 set. -/
theorem witness_IllegalWordCommitsIllegalCommand :
    8 ≤ ((0x00000008 : Word).extractLsb' 0 4).toNat ∧ 8 ≤ ((0x0000000F : Word).extractLsb' 0 4).toNat ∧
    (0x80000003 : Word).extractLsb' 4 28 ≠ 0 := by decide

/-- KLEN at its largest legal value, and one more. Also for HMAC, HOTP, TOTP and VERIFY. -/
theorem witness_Base32Encode :
    { State.reset with klen := 64 }.klen.toNat ≤ 64 ∧ 64 < { State.reset with klen := 65 }.klen.toNat := by
  decide

theorem witness_Base32Decode_tooLong : 128 < { State.reset with tlen := 129 }.tlen.toNat := by decide

/-- V-DEC-21: "1A". -/
theorem witness_Base32Decode_badCharacter :
    (texted [0x31, 0x41]).tlen.toNat ≤ 128 ∧ StrippedText (texted [0x31, 0x41]).textBytes [0x31, 0x41] ∧
    BadCharacter [0x31, 0x41] :=
  ⟨by decide, ⟨⟨0, by decide⟩, by decide⟩, 0x31, by decide, by decide⟩

/-- V-DEC-16: "MZX". -/
theorem witness_Base32Decode_badLength :
    (texted [0x4D, 0x5A, 0x58]).tlen.toNat ≤ 128 ∧
    StrippedText (texted [0x4D, 0x5A, 0x58]).textBytes [0x4D, 0x5A, 0x58] ∧
    ¬ BadCharacter [0x4D, 0x5A, 0x58] ∧ BadLength [0x4D, 0x5A, 0x58] :=
  ⟨by decide, ⟨⟨0, by decide⟩, by decide⟩, by unfold BadCharacter; decide, by decide⟩

/-- V-DEC-24: 104 times "A". -/
theorem witness_Base32Decode_tooMuch :
    (texted (List.replicate 104 0x41)).tlen.toNat ≤ 128 ∧
    StrippedText (texted (List.replicate 104 0x41)).textBytes (List.replicate 104 0x41) ∧
    ¬ BadCharacter (List.replicate 104 0x41) ∧ ¬ BadLength (List.replicate 104 0x41) ∧
    64 < 5 * (List.replicate 104 (0x41 : Byte)).length / 8 :=
  ⟨by decide +kernel, ⟨⟨0, by decide +kernel⟩, by decide +kernel⟩, by unfold BadCharacter; decide +kernel,
    by decide, by decide⟩

/-- V-DEC-23: 103 times "A" and 25 times "=", the largest text and the largest result. -/
theorem witness_Base32Decode_largest :
    let text := List.replicate 103 0x41 ++ List.replicate 25 0x3D
    (texted text).tlen.toNat ≤ 128 ∧ StrippedText (texted text).textBytes (List.replicate 103 0x41) ∧
    (List.replicate 103 0).length = (List.replicate 103 (0x41 : Byte)).length ∧
    (∀ i < (List.replicate 103 (0x41 : Byte)).length,
      HasValue ((List.replicate 103 0x41).getD i 0) ((List.replicate 103 0).getD i 0)) ∧
    ¬ BadLength (List.replicate 103 0x41) ∧ 5 * (List.replicate 103 (0x41 : Byte)).length / 8 = 64 :=
  ⟨by decide +kernel, ⟨⟨25, by decide +kernel⟩, by decide +kernel⟩, by decide, by decide +kernel, by decide,
    by decide⟩

/-- The ends of the three ranges of R111, with their values, and their neighbours. -/
theorem test_HasValue_ranges :
    HasValue 0x41 0 ∧ HasValue 0x5A 25 ∧ HasValue 0x61 0 ∧ HasValue 0x7A 25 ∧ HasValue 0x32 26 ∧
    HasValue 0x37 31 ∧ ¬ InAlphabet 0x40 ∧ ¬ InAlphabet 0x5B ∧ ¬ InAlphabet 0x60 ∧ ¬ InAlphabet 0x7B ∧
    ¬ InAlphabet 0x31 ∧ ¬ InAlphabet 0x38 := by
  refine ⟨?_, ?_, ?_, ?_, ?_, ?_, ?_, ?_, ?_, ?_, ?_, ?_⟩ <;> decide

/-- "MZ" and "mz", and "MZ" with one "=". -/
theorem witness_Base32DecodeIgnoresCaseAndPadding :
    let s := texted [0x4D, 0x5A]
    let lower := texted [0x6D, 0x7A]
    let padded := texted [0x4D, 0x5A, 0x3D]
    s.tlen.toNat ≤ 128 ∧ lower.tlen.toNat ≤ 128 ∧ padded.tlen.toNat ≤ 128 ∧
    lower.text.toList.take lower.tlen.toNat = (s.text.toList.take s.tlen.toNat).map lowerCase ∧
    ∃ r, padded.text.toList.take padded.tlen.toNat =
      s.text.toList.take s.tlen.toNat ++ List.replicate r 0x3D :=
  ⟨by decide, by decide, by decide, by decide, 1, by decide⟩

theorem witness_Base32RoundTrip :
    { State.reset with klen := 64 }.klen.toNat ≤ 64 ∧
    SameOperands .b32Dec (texted [0x4D, 0x59]) { texted [0x4D, 0x59] with key := fillBuffer 64 [], klen := 0 } :=
  ⟨by decide, rfl, rfl⟩

theorem witness_Hmac : { State.reset with klen := 64 }.klen.toNat ≤ 64 ∧ State.reset.alg = 0 := by
  decide

/-- The least and the greatest code length, and the greatest legal time and step. For HOTP, TOTP, TSTEP,
VERIFY and CodeTextReadsAsTheCode. -/
theorem witness_LegalConfig_and_LegalTimeStep :
    { State.reset with digits := 1 }.LegalConfig ∧ { State.reset with digits := 10 }.LegalConfig ∧
    { State.reset with stepReg := 1, time := 0x7FFFFFFFFFFFFFFF }.LegalTimeStep ∧
    { State.reset with stepReg := 0xFFFFFFFF, time := 0 }.LegalTimeStep := by decide

/-- One illegal value of each parameter: ALG, DIGITS below and above its range, STEP, TIME. -/
theorem witness_illegalParameters :
    { State.reset with alg := 1 }.alg ≠ 0 ∧ ¬ { State.reset with alg := 1 }.LegalConfig ∧
    ¬ { State.reset with digits := 0 }.LegalConfig ∧ ¬ { State.reset with digits := 11 }.LegalConfig ∧
    { State.reset with stepReg := 0 }.stepReg = 0 ∧
    { State.reset with time := 0x8000000000000000 }.time.getLsbD 63 = true ∧
    ¬ { State.reset with time := 0x8000000000000000 }.LegalTimeStep := by decide

theorem witness_TstepWritesTheFloor :
    { State.reset with stepReg := 1, time := 0x7FFFFFFFFFFFFFFF }.stepReg ≠ 0 ∧
    { State.reset with stepReg := 1, time := 0x7FFFFFFFFFFFFFFF }.time.getLsbD 63 = false := by decide

theorem witness_VerifyAcceptsExactlyTheWindow :
    let s := { State.reset with klen := 64, clen := 12, digits := 10, window := 255 }
    s.klen.toNat ≤ 64 ∧ s.clen.toNat ≤ 12 ∧ s.LegalConfig ∧ s.LegalTimeStep := by decide

theorem witness_ErrorsArePrecise : ∃ t : State, exec (.illegal 8) keyed = .next t ∧ t.err ≠ .ok :=
  ⟨_, rfl, by decide⟩

/-- One commit with each code. -/
theorem witness_EachErrorIsReported :
    (∃ t, exec (.illegal 8) keyed = .next t ∧ t.err = .illegalCommand) ∧
    (∃ t, exec .tstep { keyed with stepReg := 0 } = .next t ∧ t.err = .invalidParameters) ∧
    (∃ t, exec .b32Dec (texted [0x4D]) = .next t ∧ t.err = .invalidEncoding) ∧
    (∃ t, exec .hmac { keyed with klen := 65 } = .next t ∧ t.err = .capacityExceeded) ∧
    (∃ t, exec .nop keyed = .next t ∧ t.err = .ok) := by
  exact ⟨⟨_, rfl, rfl⟩, ⟨_, execTstep_bad fun h => h.1 rfl, rfl⟩,
    ⟨_, execB32Dec_error (s := texted [0x4D]) (e := .invalidEncoding) (by decide) (by rfl), rfl⟩,
    ⟨_, execHmac_long (s := { keyed with klen := 65 }) (by decide), rfl⟩, ⟨_, rfl, rfl⟩⟩

/-- Two states that differ outside the operands. -/
theorem witness_ResultsDependOnlyOnTheOperands :
    SameOperands .hotp keyed { keyed with time := 59, text := fillBuffer 128 [0x41] } ∧
    keyed ≠ { keyed with time := 59, text := fillBuffer 128 [0x41] } :=
  ⟨⟨rfl, rfl, rfl, rfl, rfl⟩, by decide⟩

theorem witness_KeyChanges_byDecode :
    ∃ s t : State, step s = .next t ∧ t.key ≠ s.key ∧ s.Commits .b32Dec :=
  ⟨{ texted [0x4D, 0x59] with phase := .busy .b32Dec, inbox := [] }, _,
    execB32Dec_ok (s := { texted [0x4D, 0x59] with phase := .busy .b32Dec, inbox := [] }) (bytes := [0x66])
      (by decide) (by rfl), by decide +kernel, rfl, .inl rfl⟩

theorem witness_KeyChanges_byHost :
    ∃ s t : State, step s = .next t ∧ t.key ≠ s.key ∧ s.phase = .idle :=
  ⟨writing 0x13C 1, _, rfl, by decide, rfl⟩

theorem witness_KeyChanges_byReset :
    ∃ s t : State, step s = .next t ∧ t.key ≠ s.key ∧ s.ResetsNext :=
  ⟨{ keyed with inbox := [.resetAssert false] }, _, rfl, by decide, _, _, rfl, .inl ⟨_, rfl⟩⟩

theorem witness_CounterChanges_byCommit :
    ∃ s t : State, step s = .next t ∧ t.counter ≠ s.counter ∧ s.Commits .tstep :=
  ⟨{ running .tstep with time := 59 }, _,
    execTstep_ok (s := { running .tstep with time := 59, inbox := [] }) (by decide), by decide, rfl, .inr ⟨_, rfl⟩⟩

theorem witness_CounterChanges_byHost :
    ∃ s t : State, step s = .next t ∧ t.counter ≠ s.counter ∧ s.phase = .idle :=
  ⟨writing 0x024 1, _, rfl, by decide, rfl⟩

theorem witness_TimeIsWritten_byHost :
    ∃ s t : State, step s = .next t ∧ t.time ≠ s.time ∧ s.phase = .idle :=
  ⟨writing 0x01C 1, _, rfl, by decide, rfl⟩

theorem witness_TimeIsWritten_byReset :
    ∃ s t : State, step s = .next t ∧ t.time ≠ s.time ∧ s.ResetsNext :=
  ⟨{ writing 0x004 2 with time := 59 }, _, rfl, by decide, _, _, rfl, .inr ⟨_, rfl, by decide⟩⟩

theorem witness_CommandSeesTheOperandsOfItsStart :
    ∃ (s : State) (accesses : List BusAccess) (last rest : List Event),
      s.phase = .busy .hotp ∧ s.rstLow = false ∧ accesses ≠ [] ∧ (∀ a ∈ accesses, softResets a = false) ∧
        s.inbox = accesses.map .access ++ last ∧ last = .engineTurn :: rest :=
  ⟨busyWriting 0x020 7, [writeAccess 0x020 7], [.engineTurn], [], rfl, rfl, by decide, by decide, rfl, rfl⟩

theorem witness_CommandSees_emptyInbox :
    ∃ s : State, s.phase = .busy .hotp ∧ s.rstLow = false ∧ s.inbox = ([] : List BusAccess).map .access ++ [] :=
  ⟨{ running .hotp with inbox := [] }, rfl, rfl, rfl⟩

theorem witness_LdkeyLoadsTheKey :
    ∃ (s : State) (rest : List Event), (List.replicate 64 (0xFF : Byte)).length ≤ 64 ∧ s.busy = false ∧
      s.rstLow = false ∧ s.inbox = ldkey (List.replicate 64 0xFF) ++ rest :=
  ⟨{ State.reset with inbox := ldkey (List.replicate 64 0xFF) ++ [.engineTurn] }, [.engineTurn],
    by decide, rfl, rfl, rfl⟩

theorem witness_LdtimeAndLdcntLoadBothWords :
    ∃ (s s' : State) (rest : List Event),
      s.busy = false ∧ s.rstLow = false ∧ s.inbox = ldtime 0xFFFFFFFFFFFFFFFF ++ rest ∧
      s'.busy = false ∧ s'.rstLow = false ∧ s'.inbox = ldcnt 0xFFFFFFFFFFFFFFFF ++ rest :=
  ⟨{ State.reset with inbox := ldtime 0xFFFFFFFFFFFFFFFF ++ [.engineTurn] },
    { State.reset with inbox := ldcnt 0xFFFFFFFFFFFFFFFF ++ [.engineTurn] }, [.engineTurn],
    rfl, rfl, rfl, rfl, rfl, rfl⟩

/-- A state that meets the invariant and is not the reset state, and its step. -/
theorem witness_EveryStepKeepsTheStateConsistent :
    ∃ s t : State, s.Consistent ∧ step s = .next t :=
  ⟨running .nop, _,
    ⟨fun _ => ⟨rfl, rfl, rfl⟩, fun h => absurd h (by decide),
      fun op h => by cases h; decide, .inl ⟨rfl, rfl, by decide⟩,
      fun h => absurd h (by decide)⟩, rfl⟩

/-! ### The tests and witnesses that compute SHA-1. They stand last, since the kernel needs seconds for them -/

/-- V-SHA-2. -/
theorem test_sha1_abc :
    sha1 [0x61, 0x62, 0x63] =
      [0xa9, 0x99, 0x3e, 0x36, 0x47, 0x06, 0x81, 0x6a, 0xba, 0x3e, 0x25, 0x71, 0x78, 0x50, 0xc2, 0x6c,
       0x9c, 0xd0, 0xd8, 0x9d] := by decide +kernel

/-- V-HMAC-3: the empty key. -/
theorem test_hmac :
    (nextOf (exec .hmac State.reset)).map
      (fun t => (t.statusWord, bufferWord t.digest 0, bufferWord t.digest 4)) =
    some (0x00000002, 0xD99AB6DA, 0x97A2B273) := by decide +kernel

/-- V-HOTP-4: nine digits, so one 0 in front. -/
theorem test_hotp :
    (nextOf (exec .hotp { keyed with counter := 1, digits := 9 })).map
      (fun t => (t.statusWord, t.ofs, t.trunc, t.code, bufferWord t.codeTxt 0, bufferWord t.codeTxt 1,
        bufferWord t.codeTxt 2)) =
    some (0x00000002, 11, 0x41397EEA, 94287082, 0x32343930, 0x38303738, 0x00000032) := by decide +kernel

/-- V-RFC6238-2: "07081804". -/
theorem test_totp :
    (nextOf (exec .totp { keyed with time := 1111111109, digits := 8 })).map
      (fun t => (t.statusWord, t.counter, t.code, bufferWord t.codeTxt 0, bufferWord t.codeTxt 1)) =
    some (0x00000002, 0x023523EC, 7081804, 0x38303730, 0x34303831) := by decide +kernel

/-- V-VER-21: "864010", one step late. -/
theorem test_verify :
    (nextOf (exec .verify (drifted [0x38, 0x36, 0x34, 0x30, 0x31, 0x30]))).map
      (fun t => (t.statusWord, t.counter, t.code)) = some (0x00000006, 33333334, 0) := by decide +kernel

/-- V-VER-22: "021152", two steps late. -/
theorem test_verify_two_steps_late :
    (nextOf (exec .verify (drifted [0x30, 0x32, 0x31, 0x31, 0x35, 0x32]))).map
      (fun t => (t.statusWord, t.counter)) = some (0x00000002, 33333334) := by decide +kernel

/-- V-VER-21: "864010" is the code of one step before. -/
theorem witness_VerifyTolerates_oneStep :
    let s := drifted [0x38, 0x36, 0x34, 0x30, 0x31, 0x30]
    s.klen.toNat ≤ 64 ∧ s.LegalConfig ∧ s.LegalTimeStep ∧ 1 ≤ s.window.toNat ∧
    s.stepReg.toNat ≤ s.time.toNat ∧
    s.MatchesAt (BitVec.ofNat 64 ((s.time.toNat - s.stepReg.toNat) / s.stepReg.toNat)) :=
  ⟨by decide, by decide, by decide, by decide, by decide,
    (matchesAt_iff (by decide) (by decide) _).mpr (by decide +kernel)⟩

/-- V-VER-22: "021152" is the code of two steps before. -/
theorem witness_VerifyTolerates_twoSteps :
    let s := drifted [0x30, 0x32, 0x31, 0x31, 0x35, 0x32]
    s.klen.toNat ≤ 64 ∧ s.LegalConfig ∧ s.LegalTimeStep ∧ s.window = 1 ∧
    2 * s.stepReg.toNat ≤ s.time.toNat ∧
    s.MatchesAt (BitVec.ofNat 64 ((s.time.toNat - 2 * s.stepReg.toNat) / s.stepReg.toNat)) :=
  ⟨by decide, by decide, by decide, by decide, by decide,
    (matchesAt_iff (by decide) (by decide) _).mpr (by decide +kernel)⟩

/-- V-VER-21 again: a commit with VALID = 1. -/
theorem witness_ValidIsSet :
    ∃ t, exec .verify (drifted [0x38, 0x36, 0x34, 0x30, 0x31, 0x30]) = .next t ∧ t.valid = true :=
  ⟨_, execVerify_ok (s := drifted [0x38, 0x36, 0x34, 0x30, 0x31, 0x30]) (by decide) (by decide) (by decide)
    (by decide), (commit_valid _ _ _).trans (by decide +kernel)⟩

/-- The same commit as a step. -/
theorem witness_OnlyACommitOfVerifySetsValid :
    ∃ s t : State, step s = .next t ∧ s.valid = false ∧ t.valid = true :=
  ⟨{ drifted [0x38, 0x36, 0x34, 0x30, 0x31, 0x30] with phase := .busy .verify }, _,
    execVerify_ok (s := { drifted [0x38, 0x36, 0x34, 0x30, 0x31, 0x30] with phase := .busy .verify }) (by decide)
      (by decide) (by decide) (by decide), rfl, (commit_valid _ _ _).trans (by decide +kernel)⟩

theorem witness_DigestIsWritten :
    ∃ s t : State, step s = .next t ∧ t.digest ≠ s.digest ∧ s.Commits .hmac :=
  ⟨running .hmac, _, execHmac_ok (s := { running .hmac with inbox := [] }) (by decide) rfl,
    by decide +kernel, rfl, .inr ⟨_, rfl⟩⟩

end Sys2Proof.Machine.Tests
end

section
/-! PROOFS. The state of the block (spec/10_state.md): its reset values, what a commit and a step can do to it,
and the statements of the family, which follow effect by effect. -/

namespace Sys2Proof.Machine

/-! ### The state at reset -/

theorem resetBlock_atReset (s : State) : (resetBlock s).AtReset := by constructor <;> simp

/-- The fall of rst_n is the effect of a reset, with the model's own fields moved on. -/
theorem assertReset_eq_resetBlock (cut : Bool) (s : State) : ∃ u, assertReset cut s = resetBlock u := by
  cases cut with
  | false => exact ⟨{ s with rstLow := true }, rfl⟩
  | true => exact ⟨respond _ { s with rstLow := true, drawn := s.drawn + 1 }, rfl⟩

theorem assertReset_atReset (cut : Bool) (s : State) : (assertReset cut s).AtReset := by
  obtain ⟨u, hu⟩ := assertReset_eq_resetBlock cut s
  exact hu ▸ resetBlock_atReset u

namespace State.AtReset

variable {s : State} (h : s.AtReset)
include h

theorem not_busy : s.busy = false := busy_eq_false_iff.mpr h.phase

theorem irq : s.irq = false := by simp [State.irq, h.ie]

theorem statusWord : s.statusWord = 0x00000000 := by
  simp [State.statusWord, h.not_busy, h.done, h.valid, h.covr, h.wign, h.err, Completion.code]

theorem cfgWord : s.cfgWord = 0x00000106 := by
  simp [State.cfgWord, h.window, h.alg, h.digits]

theorem readCtrl : readReg .ctrl s = 0x00000000 := by simp [readReg, h.ie]

theorem codeAgrees : s.CodeAgrees :=
  .inl ⟨h.trunc, h.code, Vector.ext fun i hi => by simpa using h.codeTxt ⟨i, hi⟩⟩

/-- The level of rst_n and the model's own fields are no part of the reset values. -/
theorem with_modelFields (rstLow : Bool) (inbox : List Event) (response : Option Response) :
    { s with rstLow := rstLow, inbox := inbox, response := response }.AtReset := by
  cases h
  constructor <;> assumption

/-- The reset values meet the invariant. -/
theorem consistent : s.Consistent where
  busyQuiet _ := ⟨h.done, h.valid, h.err⟩
  validOk _ := h.err
  running op hp := by rw [h.phase] at hp; cases hp
  code := h.codeAgrees
  held _ := h

end State.AtReset

/-! ### Reads and writes of STATUS, CTRL, CMD and the operand registers -/

theorem statusWord_toNat (s : State) :
    s.statusWord.toNat = s.busy.toNat + 2 * s.done.toNat + 4 * s.valid.toNat + 8 * s.covr.toNat +
      16 * s.wign.toNat + 256 * s.err.code.toNat := by
  simp only [State.statusWord, append_toNat, BitVec.toNat_ofBool, BitVec.toNat_ofNat]
  omega

theorem busWrite_ctrl (v : Word) (s : State) (h : v.getLsbD 1 = false) :
    busWrite 0x004 0b1111 v s = respond ⟨false, none⟩ { s with ie := v.getLsbD 0 } := by
  rw [busWrite_full _ _ rfl, show regAt 0x004 = .ctrl from rfl, writeReg, h]
  rfl

theorem busWrite_cmd_busy (w : Word) {s : State} (h : s.busy = true) :
    busWrite 0x00C 0b1111 w s = respond ⟨false, none⟩ { s with covr := true } := by
  rw [busWrite_full _ _ rfl, show regAt 0x00C = .cmd from rfl, writeReg, if_pos h]

theorem busWrite_cmd_idle (w : Word) {s : State} (h : s.busy = false) :
    busWrite 0x00C 0b1111 w s = respond ⟨false, none⟩ (start (decodeWord w) s) := by
  rw [busWrite_full _ _ rfl, show regAt 0x00C = .cmd from rfl, writeReg, if_neg (by simp [h])]

theorem not_isIgnored_of_isOperand {r : Reg} (h : r.isOperand = true) : r.isIgnored = false := by
  revert h
  cases r <;> simp [Reg.isOperand, Reg.isIgnored]

theorem writeReg_operand_busy {r : Reg} (v : Word) {s : State} (hr : r.isOperand = true)
    (hb : s.busy = true) : writeReg r v s = { s with wign := true } := by
  cases write_cases r v s with
  | wign _ _ ht => exact ht
  | store _ hp => simp [busy_eq_false_iff.mpr hp] at hb
  | start hr' | covr hr' | reset hr' | ie hr' | status hr' => rw [hr'] at hr; cases hr
  | same hr' => rw [not_isIgnored_of_isOperand hr] at hr'; cases hr'

theorem busWrite_operand_busy {addr : BitVec 12} (v : Word) {s : State} (ha : operandOffset addr = true)
    (hb : s.busy = true) : busWrite addr 0b1111 v s = respond ⟨false, none⟩ { s with wign := true } := by
  obtain ⟨hr, h4⟩ := operandOffset_spec ha
  rw [busWrite_full _ _ h4, writeReg_operand_busy v hr hb]

/-! ### What a commit does -/

theorem onlyResults_commit (op : Instr) (e : Completion) (v : Bool) (s : State) :
    OnlyResults op s (commit e v s) := by
  cases op <;> rfl

/-- Every command commits, and changes STATUS and its result column at most (spec/10_state.md R48). -/
theorem exec_onlyResults (op : Instr) (s : State) : ∃ t, exec op s = .next t ∧ OnlyResults op s t := by
  cases exec_cases op s with
  | failed e _ h => exact ⟨_, h, onlyResults_commit op e false s⟩
  | completed v r h _ _ _ _ _ _ _ results => exact ⟨_, h, results⟩

theorem onlyResults_of_exec {op : Instr} {s t : State} (h : exec op s = .next t) : OnlyResults op s t := by
  obtain ⟨u, hu, hres⟩ := exec_onlyResults op s
  cases hu.symm.trans h
  exact hres

namespace OnlyResults

variable {op : Instr} {s t : State} (h : OnlyResults op s t)
include h

theorem phase : t.phase = .idle := by cases op <;> exact (congrArg State.phase h :)
theorem done : t.done = true := by cases op <;> exact (congrArg State.done h :)
theorem covr : t.covr = s.covr := by cases op <;> exact (congrArg State.covr h :)
theorem wign : t.wign = s.wign := by cases op <;> exact (congrArg State.wign h :)
theorem rstLow : t.rstLow = s.rstLow := by cases op <;> exact (congrArg State.rstLow h :)

theorem key (hop : op ≠ .b32Dec) : t.key = s.key := by
  cases op
  case b32Dec => exact absurd rfl hop
  all_goals exact (congrArg State.key h :)

theorem digest (h1 : op ≠ .hmac) (h2 : op ≠ .hotp) (h3 : op ≠ .totp) : t.digest = s.digest := by
  cases op
  case hmac => exact absurd rfl h1
  case hotp => exact absurd rfl h2
  case totp => exact absurd rfl h3
  all_goals exact (congrArg State.digest h :)

/-- A command that is neither HOTP nor TOTP leaves TRUNC, CODE and CODE_TXT. -/
theorem codeAgrees (h1 : op ≠ .hotp) (h2 : op ≠ .totp) (hs : s.CodeAgrees) : t.CodeAgrees := by
  cases op
  case hotp => exact absurd rfl h1
  case totp => exact absurd rfl h2
  all_goals rw [h]; exact hs

end OnlyResults

theorem valid_of_raise {e : Completion} {s t : State} (h : raise e s = .next t) : t.valid = false := by
  cases h; rfl

theorem valid_of_complete {v : Bool} {s t : State} (h : complete v s = .next t) : t.valid = v := by
  cases h; rfl

/-- Only VERIFY sets VALID (spec/10_state.md R29). -/
theorem exec_valid_false {op : Instr} {s t : State} (h : exec op s = .next t) (hop : op ≠ .verify) :
    t.valid = false := by
  cases op with
  | nop => exact valid_of_complete h
  | illegal w => exact valid_of_raise h
  | verify => exact absurd rfl hop
  | b32Enc | tstep =>
    simp only [exec, execB32Enc, execTstep] at h
    split at h
    · exact valid_of_raise h
    · exact valid_of_complete h
  | b32Dec =>
    simp only [exec, execB32Dec] at h
    split at h
    · exact valid_of_raise h
    · split at h
      · exact valid_of_raise h
      · exact valid_of_complete h
  | hmac | hotp | totp =>
    simp only [exec, execHmac, execHotp, execTotp] at h
    split at h
    · exact valid_of_raise h
    · split at h
      · exact valid_of_raise h
      · exact valid_of_complete h

/-- VERIFY sets VALID exactly when it ends with ERR = OK and the candidate matched. -/
theorem execVerify_valid_iff {s t : State} (h : exec .verify s = .next t) :
    t.valid = true ↔ t.err = .ok ∧ s.Matches := by
  change execVerify s = _ at h
  by_cases hl : 64 < s.klen.toNat ∨ 12 < s.clen.toNat
  · rw [execVerify_long hl] at h
    cases h
    simp
  · have hk : s.klen.toNat ≤ 64 := by omega
    have hcl : s.clen.toNat ≤ 12 := by omega
    by_cases hp : s.LegalConfig ∧ s.LegalTimeStep
    · rw [execVerify_ok hk hcl hp.1 hp.2] at h
      cases h
      simp [candidateValid_iff hk hcl hp.1 hp.2]
    · rw [execVerify_bad hk hcl (not_and_or.mp hp)] at h
      cases h
      simp

/-- A commit with VALID = 1 has ERR = OK. -/
theorem exec_valid_ok {op : Instr} {s t : State} (h : exec op s = .next t) (hv : t.valid = true) :
    t.err = .ok := by
  by_cases hop : op = .verify
  · subst hop
    exact ((execVerify_valid_iff h).mp hv).1
  · rw [exec_valid_false h hop] at hv
    cases hv

/-- What HOTP writes for a legal code length agrees (spec/41_hmac_hotp.md R153, R154). -/
theorem withHotpResults_codeAgrees (c : DWord) {s : State} (h : s.LegalConfig) :
    (withHotpResults c s).CodeAgrees := by
  obtain ⟨-, h1, h10⟩ := h
  refine .inr ⟨s.digits.toNat, List.mem_range.mpr (by omega), by omega, ?_, ?_⟩
  · rw [withHotpResults_code, withHotpResults_trunc, codeValue_toNat]
  · rw [withHotpResults_codeTxt, withHotpResults_code]

/-- Every command keeps TRUNC, CODE and CODE_TXT in agreement. -/
theorem exec_codeAgrees {op : Instr} {s t : State} (h : exec op s = .next t) (hs : s.CodeAgrees) :
    t.CodeAgrees := by
  cases op with
  | hotp =>
    change execHotp s = _ at h
    rcases Nat.lt_or_ge 64 s.klen.toNat with hk | hk
    · rw [execHotp_long hk] at h; cases h; exact hs
    · by_cases hc : s.LegalConfig
      · rw [execHotp_ok hk hc] at h; cases h; exact withHotpResults_codeAgrees _ hc
      · rw [execHotp_bad hk hc] at h; cases h; exact hs
  | totp =>
    change execTotp s = _ at h
    rcases Nat.lt_or_ge 64 s.klen.toNat with hk | hk
    · rw [execTotp_long hk] at h; cases h; exact hs
    · by_cases hc : s.LegalConfig ∧ s.LegalTimeStep
      · rw [execTotp_ok hk hc.1 hc.2] at h; cases h; exact withHotpResults_codeAgrees _ hc.1
      · rw [execTotp_bad hk (not_and_or.mp hc)] at h; cases h; exact hs
  | _ => exact (onlyResults_of_exec h).codeAgrees nofun nofun hs

/-! ### What one step does to the registers -/

/-- Everything a step that answers a next state can do: the step, the access and the register write in one
list. `stores` is the write of an operand register at IDLE, `flags` one that changes IE or sets COVR or
WIGN at most, and `keeps` a step that leaves every register as it was. -/
inductive StepEffect (s t : State) : Prop
  | commits {op : Instr} {rest : List Event} (he : exec op { s with inbox := rest } = .next t)
      (hc : s.Commits op)
  | resets (ht : t.AtReset) (hr : s.ResetsNext)
  | starts {w : Word} {rest : List Event} {r : Response}
      (ht : t = respond r (start (decodeWord w) { s with inbox := rest }))
      (hi : s.inbox = .access (writeAccess 0x00C w) :: rest) (hl : s.rstLow = false) (hp : s.phase = .idle)
  | clears {v : Word} {rest : List Event} {r : Response}
      (ht : t = respond r (clearStatus v { s with inbox := rest }))
      (hi : s.inbox = .access (writeAccess 0x008 v) :: rest) (hl : s.rstLow = false)
  | stores {addr : BitVec 12} {v : Word} {rest : List Event} {r : Response} {digits : BitVec 4}
      {alg : BitVec 2} {window : BitVec 8} {stepReg : Word} {time counter : DWord} {key : Vector Byte 64}
      {klen : BitVec 7} {text : Vector Byte 128} {tlen : BitVec 8} {cand : Vector Byte 12} {clen : BitVec 4}
      (ht : t = respond r { s with
        inbox := rest, digits := digits, alg := alg, window := window, stepReg := stepReg, time := time
        counter := counter, key := key, klen := klen, text := text, tlen := tlen
        cand := cand, clen := clen })
      (hi : s.inbox = .access (writeAccess addr v) :: rest) (hl : s.rstLow = false) (hp : s.phase = .idle)
      (h4 : addr.toNat % 4 = 0) (hk : key ≠ s.key → ∃ k, regAt addr = .key k)
      (hc : counter ≠ s.counter → regAt addr = .cntLo ∨ regAt addr = .cntHi)
      (htm : time ≠ s.time → regAt addr = .timeLo ∨ regAt addr = .timeHi)
  | flags {ie covr wign : Bool} {rest : List Event} {r : Response}
      (ht : t = respond r { s with inbox := rest, ie := ie, covr := covr, wign := wign })
      (hl : s.rstLow = false) (hcovr : s.covr = true → covr = true) (hwign : s.wign = true → wign = true)
  | keeps {rstLow : Bool} {inbox : List Event} {response : Option Response}
      (ht : t = { s with rstLow := rstLow, inbox := inbox, response := response })
      (hl : rstLow = true → s.rstLow = true)

/-- A full aligned write, as a step. -/
theorem write_effect {s : State} {addr : BitVec 12} {v : Word} {rest : List Event} (r : Response)
    (hi : s.inbox = .access (writeAccess addr v) :: rest) (hl : s.rstLow = false)
    (h4 : addr.toNat % 4 = 0) :
    StepEffect s (respond r (writeReg (regAt addr) v { s with inbox := rest })) := by
  cases write_cases (regAt addr) v { s with inbox := rest } with
  | start hr hp ht => rw [regAt_cmd hr] at hi; rw [ht]; exact .starts rfl hi hl hp
  | covr _ _ ht => rw [ht]; exact .flags rfl hl (fun _ => rfl) id
  | reset hr hv ht =>
    rw [regAt_ctrl hr] at hi
    rw [ht]
    exact .resets (resetBlock_atReset (respond r { s with inbox := rest }))
      ⟨_, rest, hi, .inr ⟨_, rfl, softResets_writeAccess v hv⟩⟩
  | ie _ _ ht => rw [ht]; exact .flags rfl hl id id
  | status hr ht => rw [regAt_status hr] at hi; rw [ht]; exact .clears rfl hi hl
  | wign _ _ ht => rw [ht]; exact .flags rfl hl id fun _ => rfl
  | store hr hp _ _ _ _ _ _ _ _ _ _ _ _ ht hk hc htm => rw [ht]; exact .stores rfl hi hl hp h4 hk hc htm
  | same _ ht => rw [ht]; exact .keeps (s := s) rfl id

theorem step_effect {s t : State} (h : step s = .next t) : StepEffect s t := by
  cases step_cases h with
  | commits op rest _ hc he => exact .commits he hc
  | idle _ rest ht => exact .keeps ht id
  | assert cut rest hi ht => exact .resets (ht ▸ assertReset_atReset cut _) ⟨_, rest, hi, .inl ⟨cut, rfl⟩⟩
  | release rest _ ht => exact .keeps (rstLow := false) ht nofun
  | access a rest hi hl ht =>
    rw [ht]
    cases access_cases a { s with inbox := rest } with
    | same r ht => rw [ht]; exact .keeps (s := s) rfl id
    | write addr v r ha h4 ht => rw [ht]; subst ha; exact write_effect r hi hl h4

/-- BUSY is the phase (spec/10_state.md R49). -/
theorem busy_congr {s t : State} (h : t.phase = s.phase) : t.busy = s.busy := by simp only [State.busy, h]

theorem busy_of_commits {s : State} {op : Instr} (h : s.Commits op) : s.busy = true := by
  simp [State.busy, h.1]

/-! ### The invariant -/

theorem decodeWord_wellFormed (w : Word) : (decodeWord w).WellFormed := by
  rcases decodeWord_cases w with
    ⟨-, h⟩ | ⟨-, h⟩ | ⟨-, h⟩ | ⟨-, h⟩ | ⟨-, h⟩ | ⟨-, h⟩ | ⟨-, h⟩ | ⟨-, h⟩ | ⟨h8, h⟩ <;> rw [h]
  on_goal 9 => exact (illegalWord_iff w).mpr h8
  all_goals rfl

namespace State.Consistent

variable {s t : State} (hs : s.Consistent)
include hs

theorem idle_of_rstLow (h : s.rstLow = true) : s.phase = .idle := (hs.held h).phase

/-- A commit keeps the invariant. -/
theorem commit_consistent {op : Instr} {rest : List Event} (hc : s.Commits op)
    (he : exec op { s with inbox := rest } = .next t) : t.Consistent := by
  have hres := onlyResults_of_exec he
  have hidle := busy_eq_false_iff.mpr hres.phase
  exact {
    busyQuiet := fun hb => by rw [hidle] at hb; cases hb
    validOk := exec_valid_ok he
    running := fun op' hp => by rw [hres.phase] at hp; cases hp
    code := exec_codeAgrees he hs.code
    held := fun hl => by
      have hp := hs.idle_of_rstLow (hres.rstLow.symm.trans hl)
      rw [hc.1] at hp
      cases hp }

/-- A step that leaves the phase, VALID, ERR and the code registers, and sets no DONE, keeps the invariant. -/
theorem frame_consistent (hphase : t.phase = s.phase) (hdone : t.done = true → s.done = true)
    (hvalid : t.valid = s.valid) (herr : t.err = s.err) (htrunc : t.trunc = s.trunc) (hcode : t.code = s.code)
    (htxt : t.codeTxt = s.codeTxt) (held : t.rstLow = true → t.AtReset) : t.Consistent where
  busyQuiet hb := by
    rw [busy_congr hphase] at hb
    obtain ⟨hd, hv, he⟩ := hs.busyQuiet hb
    exact ⟨Bool.eq_false_iff.mpr fun h => by simp [hdone h] at hd, hvalid.trans hv, herr.trans he⟩
  validOk hv := by rw [hvalid] at hv; exact herr.trans (hs.validOk hv)
  running op hp := hs.running op (hphase.symm.trans hp)
  code := by
    unfold State.CodeAgrees
    rw [htrunc, hcode, htxt]
    exact hs.code
  held := held

/-- The start of a command keeps the invariant (spec/60_exceptions.md R238). -/
theorem start_consistent (hl : s.rstLow = false) (w : Word) (rest : List Event) (r : Response) :
    (respond r (start (decodeWord w) { s with inbox := rest })).Consistent where
  busyQuiet _ := ⟨rfl, rfl, rfl⟩
  validOk _ := rfl
  running op hp := by cases hp; exact decodeWord_wellFormed w
  code := hs.code
  held h := by simp [hl] at h

end State.Consistent

/-- What a step keeps of the invariant, effect by effect. -/
theorem step_consistent {s t : State} (hs : s.Consistent) (h : step s = .next t) : t.Consistent := by
  cases step_effect h with
  | commits he hc => exact hs.commit_consistent hc he
  | resets ht => exact ht.consistent
  | starts ht _ hl =>
    rw [ht]
    exact hs.start_consistent hl _ _ _
  | clears ht _ hl =>
    rw [ht]
    exact hs.frame_consistent rfl (fun hd => ((Bool.and_eq_true _ _).mp hd).1) rfl rfl rfl rfl rfl
      fun h => by simp [hl] at h
  | stores ht _ hl | flags ht hl =>
    rw [ht]
    exact hs.frame_consistent rfl id rfl rfl rfl rfl rfl fun h => by simp [hl] at h
  | keeps ht hl =>
    rw [ht]
    exact hs.frame_consistent rfl id rfl rfl rfl rfl rfl fun h => (hs.held (hl h)).with_modelFields _ _ _

/-! ### The statements of the family -/

/-- Settles O60: each effect of a step keeps the invariant. -/
theorem everyStepKeepsTheStateConsistent : Obligations.EveryStepKeepsTheStateConsistent :=
  fun _ _ hs h => step_consistent hs h

/-- Settles O59: the reset state has the reset values, and they meet the invariant. -/
theorem resetStateIsConsistent : Obligations.ResetStateIsConsistent :=
  (resetBlock_atReset State.reset).consistent

/-- Settles O9: of the effects of a step only a STATUS write and a reset clear COVR. -/
theorem cmdWriteWhileBusyOnlySetsCovr : Obligations.CmdWriteWhileBusyOnlySetsCovr := by
  refine ⟨fun s w hb => busWrite_cmd_busy w hb, fun s t h hs ht => ?_⟩
  cases step_effect h with
  | commits he => rw [(onlyResults_of_exec he).covr, hs] at ht; cases ht
  | resets _ hr => exact .inl hr
  | clears hu hi => exact .inr ⟨_, _, hi, by simpa [hu, hs] using ht⟩
  | flags hu _ hcovr => rw [hu] at ht; exact absurd (hcovr hs) (Bool.eq_false_iff.mp ht)
  | starts hu | stores hu | keeps hu => rw [hu] at ht; exact absurd hs (Bool.eq_false_iff.mp ht)

/-- Settles O10: of the effects of a step only a STATUS write and a reset clear WIGN. -/
theorem operandWriteWhileBusyOnlySetsWign : Obligations.OperandWriteWhileBusyOnlySetsWign := by
  refine ⟨fun s addr v ha hb => busWrite_operand_busy v ha hb, fun s t h hs ht => ?_⟩
  cases step_effect h with
  | commits he => rw [(onlyResults_of_exec he).wign, hs] at ht; cases ht
  | resets _ hr => exact .inl hr
  | clears hu hi => exact .inr ⟨_, _, hi, by simpa [hu, hs] using ht⟩
  | flags hu _ _ hwign => rw [hu] at ht; exact absurd (hwign hs) (Bool.eq_false_iff.mp ht)
  | starts hu | stores hu | keeps hu => rw [hu] at ht; exact absurd hs (Bool.eq_false_iff.mp ht)

/-- Settles O27: only a start leaves a step BUSY that was not, and only a commit or a reset ends BUSY. -/
theorem busyBeginsAtACmdWriteAndEndsAtACommitOrReset :
    Obligations.BusyBeginsAtACmdWriteAndEndsAtACommitOrReset := by
  intro s t h
  cases step_effect h with
  | commits he hc =>
    refine ⟨fun hs => ?_, fun _ _ => .inr ⟨_, hc⟩⟩
    rw [busy_of_commits hc] at hs
    cases hs
  | resets ht hr => exact ⟨fun _ hb => absurd hb (by simp [ht.not_busy]), fun _ _ => .inl hr⟩
  | starts _ hi _ hp =>
    exact ⟨fun _ _ => ⟨_, _, hi⟩, fun hb => absurd hb (by simp [busy_eq_false_iff.mpr hp])⟩
  | clears hu | stores hu | flags hu | keeps hu =>
    have hb : t.busy = s.busy := busy_congr (congrArg State.phase hu :)
    rw [hb]
    exact ⟨fun h0 h1 => absurd h1 (by simp [h0]), fun h1 h0 => absurd h1 (by simp [h0])⟩

/-- Settles O28: DONE rises at a commit and falls at a start, a STATUS write or a reset. -/
theorem doneIsSetByACommitAndClearedByThreeEvents : Obligations.DoneIsSetByACommitAndClearedByThreeEvents := by
  intro s t h
  cases step_effect h with
  | commits he hc =>
    refine ⟨fun _ _ => ⟨_, hc⟩, fun _ ht => ?_⟩
    rw [(onlyResults_of_exec he).done] at ht
    cases ht
  | resets ht hr => exact ⟨fun _ hd => absurd hd (by simp [ht.done]), fun _ _ => .inl hr⟩
  | starts hu hi _ hp =>
    exact ⟨fun _ hd => absurd hd (by simp [hu]),
      fun _ _ => .inr (.inl ⟨busy_eq_false_iff.mpr hp, _, _, hi⟩)⟩
  | clears hu hi =>
    exact ⟨fun hs hd => by simp [hu, hs] at hd, fun hs hd => .inr (.inr ⟨_, _, hi, by simpa [hu, hs] using hd⟩)⟩
  | stores hu | flags hu | keeps hu =>
    have hd : t.done = s.done := (congrArg State.done hu :)
    rw [hd]
    exact ⟨fun h0 h1 => absurd h1 (by simp [h0]), fun h1 h0 => absurd h1 (by simp [h0])⟩

/-- Settles O48, by the cases of a commit. -/
theorem commandsWriteOnlyTheirResultColumn : Obligations.CommandsWriteOnlyTheirResultColumn :=
  exec_onlyResults

/-- Settles O50: VERIFY's answer is `Matches`, every other command commits VALID = 0, and a start clears it. -/
theorem validIsSetByAMatchedVerifyOnly : Obligations.ValidIsSetByAMatchedVerifyOnly := by
  refine ⟨fun op s t h => ?_, fun s w hb => by rw [busWrite_cmd_idle w hb]; rfl⟩
  by_cases hop : op = .verify
  · subst hop
    simpa using execVerify_valid_iff h
  · simp [exec_valid_false h hop, hop]

/-- Settles O51: no effect of a step but a commit sets VALID, and no command but VERIFY commits it. -/
theorem onlyACommitOfVerifySetsValid : Obligations.OnlyACommitOfVerifySetsValid := by
  intro s t h hs ht
  cases step_effect h with
  | @commits op _ he hc =>
    by_cases hop : op = .verify
    · exact hop ▸ hc
    · rw [exec_valid_false he hop] at ht
      cases ht
  | resets hu => rw [hu.valid] at ht; cases ht
  | starts hu => rw [hu] at ht; cases ht
  | clears hu | stores hu | flags hu | keeps hu => rw [hu] at ht; exact absurd ht (Bool.eq_false_iff.mp hs)

/-- Settles O52: KEY changes at the commit of B32_DEC, at the store of a KEY word, or at a reset. -/
theorem keyChangesOnlyByDecodeHostOrReset : Obligations.KeyChangesOnlyByDecodeHostOrReset := by
  intro s t h hne
  cases step_effect h with
  | @commits op _ he hc =>
    by_cases hop : op = .b32Dec
    · exact .inl (hop ▸ hc)
    · exact absurd ((onlyResults_of_exec he).key hop) hne
  | resets _ hr => exact .inr (.inl hr)
  | stores hu hi _ hp h4 hk =>
    rw [hu] at hne
    obtain ⟨k, hreg⟩ := hk hne
    obtain ⟨hlo, hhi, -⟩ := regAt_key hreg
    exact .inr (.inr ⟨hp, _, _, _, hi, hlo, by omega⟩)
  | starts hu | clears hu | flags hu | keeps hu => exact absurd (congrArg State.key hu :) hne

/-- Settles O53: of the effects of a step only a commit and a reset write DIGEST, and of the commands only
HMAC, HOTP and TOTP. -/
theorem digestIsWrittenByHmacHotpAndTotpOnly : Obligations.DigestIsWrittenByHmacHotpAndTotpOnly := by
  intro s t h hne
  cases step_effect h with
  | @commits op _ he hc =>
    by_cases h1 : op = .hmac
    · exact .inl (h1 ▸ hc)
    by_cases h2 : op = .hotp
    · exact .inr (.inl (h2 ▸ hc))
    by_cases h3 : op = .totp
    · exact .inr (.inr (.inl (h3 ▸ hc)))
    · exact absurd ((onlyResults_of_exec he).digest h1 h2 h3) hne
  | resets _ hr => exact .inr (.inr (.inr hr))
  | starts hu | clears hu | stores hu | flags hu | keeps hu => exact absurd (congrArg State.digest hu :) hne

/-- Settles O14: the read word is the sum of its bits, and the code numbers are those of R230. -/
theorem statusReadsBitByBit : Obligations.StatusReadsBitByBit := by
  intro s
  refine ⟨s.statusWord, busRead_aligned 0x008 rfl, ?_, ?_⟩
  · rw [statusWord_toNat]
    cases s.err <;> rfl
  · rw [← Bool.not_eq_false, busy_eq_false_iff]

/-- Settles O23: each of the three states is one after a reset, so it has the reset values. -/
theorem everyResetGivesTheListedValues : Obligations.EveryResetGivesTheListedValues := by
  intro t h
  have ht : t.AtReset := by
    obtain rfl | ⟨s, rfl | ⟨cut, rfl⟩⟩ := h
    · exact resetBlock_atReset State.reset
    · exact resetBlock_atReset s
    · exact assertReset_atReset cut s
  exact ⟨ht, ht.irq, ht.statusWord, ht.cfgWord, rfl, ht.readCtrl, ht.stepReg⟩

/-- Settles O24: the write sets IE, and irq is IE and DONE. -/
theorem ctrlWriteSetsOnlyTheInterruptEnable : Obligations.CtrlWriteSetsOnlyTheInterruptEnable :=
  fun s v h => ⟨_, busWrite_ctrl v s h, rfl, Bool.and_eq_true_iff⟩

end Sys2Proof.Machine
end

section
/-! PROOFS. The register window (spec/20_memory.md): the address map, single accesses, writes that are two
steps of the host, and the operands that a running command sees. -/

namespace Sys2Proof.Machine

/-! ### The address map -/

/-- Every named register is found at its offset (spec/20_memory.md R63). -/
theorem regAt_offset {r : Reg} (h : r ≠ .reserved) : regAt r.offset = r := by
  cases r with
  | reserved => exact absurd rfl h
  | codeTxt k | cand k | digest k | key k | text k => revert k; decide
  | _ => rfl

theorem offset_aligned (r : Reg) : r.offset.toNat % 4 = 0 := by
  cases r with
  | codeTxt k | cand k | digest k | key k | text k =>
    simp only [Reg.offset, BitVec.toNat_ofNat]
    omega
  | _ => rfl

/-- An aligned offset that names a register is that register's (spec/20_memory.md R63). -/
theorem offset_regAt {addr : BitVec 12} (h4 : addr.toNat % 4 = 0) (h : regAt addr ≠ .reserved) :
    (regAt addr).offset = addr := by
  apply BitVec.eq_of_toNat_eq
  revert h
  unfold regAt
  dsimp only
  repeat' split
  all_goals
    intro h
    first
    | exact absurd rfl h
    | simp only [Reg.offset, BitVec.ofNat_eq_ofNat, BitVec.toNat_ofNat]; omega

/-- The reserved ranges of the window (spec/20_memory.md R63). -/
theorem regAt_reserved {addr : BitVec 12}
    (h : addr.toNat = 0x04C ∨ addr.toNat = 0x05C ∨ (0x074 ≤ addr.toNat ∧ addr.toNat ≤ 0x0FC) ∨
      (0x140 ≤ addr.toNat ∧ addr.toNat ≤ 0x1FC) ∨ 0x280 ≤ addr.toNat) : regAt addr = .reserved := by
  unfold regAt
  dsimp only
  repeat' split
  all_goals first | rfl | omega

/-! ### One access -/

theorem writeReg_inbox (r : Reg) (v : Word) (s : State) : (writeReg r v s).inbox = s.inbox := by
  cases write_cases r v s with
  | start _ _ ht | covr _ _ ht | reset _ _ ht | ie _ _ ht | status _ ht | wign _ _ ht | same _ ht
  | store _ _ _ _ _ _ _ _ _ _ _ _ _ _ ht => exact (congrArg State.inbox ht :)

theorem writeReg_rstLow (r : Reg) (v : Word) (s : State) : (writeReg r v s).rstLow = s.rstLow := by
  cases write_cases r v s with
  | start _ _ ht | covr _ _ ht | reset _ _ ht | ie _ _ ht | status _ ht | wign _ _ ht | same _ ht
  | store _ _ _ _ _ _ _ _ _ _ _ _ _ _ ht => exact (congrArg State.rstLow ht :)

/-- A write to a read-only register or a reserved offset is ignored (spec/20_memory.md R68, R69). -/
theorem writeReg_ignored {r : Reg} (v : Word) (s : State) (h : r.isIgnored = true) : writeReg r v s = s := by
  cases r <;> first | rfl | cases h

theorem busAccess_inbox (a : BusAccess) (s : State) : (busAccess a s).inbox = s.inbox := by
  cases access_cases a s with
  | same r ht => rw [ht, respond_inbox]
  | write addr v r _ _ ht => rw [ht, respond_inbox, writeReg_inbox]

/-- Every access is answered (spec/20_memory.md R62). -/
theorem busAccess_response (a : BusAccess) (s : State) : ∃ r, (busAccess a s).response = some r := by
  cases access_cases a s with
  | same r ht | write _ _ r _ _ ht => exact ⟨r, by rw [ht, respond_response]⟩

theorem busRead_misaligned {addr : BitVec 12} (s : State) (h : addr.toNat % 4 ≠ 0) :
    busRead addr s = respond ⟨true, some 0⟩ s := by
  rw [busRead, if_pos ((misaligned_iff addr).mpr h)]

theorem busWrite_refused {addr : BitVec 12} {strb : BitVec 4} (v : Word) (s : State)
    (h : addr.toNat % 4 ≠ 0 ∨ strb ≠ 0b1111) : busWrite addr strb v s = respond ⟨true, none⟩ s := by
  rw [busWrite, if_pos]
  rwa [Bool.or_eq_true, misaligned_iff, bne_iff_ne]

/-- A read of a register that is a word of a buffer answers the four bytes of that word, lane 0 first
(spec/20_memory.md R64). -/
theorem busRead_bufferWord {n : Nat} (buf : Vector Byte n) (k : Nat) {r : Reg} {s : State}
    (hr : r ≠ .reserved) (hw : readReg r s = bufferWord buf k) :
    ∃ v, busRead r.offset s = respond ⟨false, some v⟩ s ∧
      ∀ j : Fin 4, (v >>> (8 * j.val)).setWidth 8 = buf.toList.getD (4 * k + j.val) 0 := by
  refine ⟨bufferWord buf k, ?_, fun j => ?_⟩
  · rw [busRead_aligned _ (offset_aligned r), regAt_offset hr, hw]
  · rw [← lane_eq, lane_bufferWord _ _ _ j.isLt, byteAt]

/-! ### Writes of the host program, step by step -/

/-- `wr` to a named register is one step (spec/30_encoding.md R97). -/
theorem step_wr {r : Reg} {v : Word} {s : State} {rest : List Event} (hr : r ≠ .reserved)
    (hl : s.rstLow = false) (hi : s.inbox = wr r v :: rest) :
    step s = .next (respond ⟨false, none⟩ (writeReg r v { s with inbox := rest })) := by
  have hwrite := busWrite_full (s := { s with inbox := rest }) r.offset v (offset_aligned r)
  rw [regAt_offset hr] at hwrite
  exact (step_access hl hi).trans (congrArg Host.Outcome.next hwrite)

/-- Two such writes, one after the other. -/
theorem run_wr_wr {r r' : Reg} {v v' : Word} {s t t' : State} {rest : List Event} (hr : r ≠ .reserved)
    (hr' : r' ≠ .reserved) (hl : s.rstLow = false) (hi : s.inbox = wr r v :: wr r' v' :: rest)
    (hw : writeReg r v { s with inbox := wr r' v' :: rest } = t)
    (hw' : writeReg r' v' { respond ⟨false, none⟩ t with inbox := rest } = t') :
    Sys2Proof.core.run 2 s = .next (respond ⟨false, none⟩ t') := by
  subst hw hw'
  refine (run_succ (step_wr hr hl hi) 1).trans (run_succ (step_wr hr' ?_ ?_) 0)
  · rw [respond_rstLow, writeReg_rstLow, hl]
  · rw [respond_inbox, writeReg_inbox]

theorem operandWrite_idle (stored : State) {s : State} (hb : s.busy = false) :
    operandWrite stored s = stored := by
  rw [operandWrite, hb]
  rfl

/-- The two words of a 64-bit value, stored one after the other, are the value. -/
theorem withHi_withLo (c d : DWord) : withHi (withLo c (loWord d)) (hiWord d) = d := by
  rw [withHi, loWord_withLo]
  apply BitVec.eq_of_getLsbD_eq
  intro i hi
  rw [append_getLsbD]
  split
  next h => simp [loWord, h]
  next h => simp [hiWord, show i - 32 < 32 by omega, show 32 + (i - 32) = i by omega]

/-! ### What a running command sees of the host -/

theorem engineMove_busy {s : State} {op : Instr} (hp : s.phase = .busy op) : engineMove s = exec op s := by
  simp only [engineMove, hp]

/-- The commit of the running command, as a step (spec/60_exceptions.md R237). -/
theorem step_commit {s : State} {op : Instr} {rest : List Event} (hp : s.phase = .busy op)
    (hi : s.inbox = [] ∧ rest = [] ∨ s.inbox = .engineTurn :: rest) :
    step s = exec op { s with inbox := rest } := by
  rcases hi with ⟨hi, rfl⟩ | hi
  · rw [step_nil hi, engineMove_busy hp, ← hi]
  · exact (step_cons hi).trans (engineMove_busy hp)

/-- Accesses that find the engine BUSY and are no soft reset change IE, DONE, COVR, WIGN and the response at
most, whatever comes after them (spec/20_memory.md R72). -/
theorem run_accesses_busy {op : Instr} {last : List Event} (n : Nat) (accesses : List BusAccess) (s : State)
    (hp : s.phase = .busy op) (hl : s.rstLow = false) (ha : ∀ a ∈ accesses, softResets a = false)
    (hi : s.inbox = accesses.map .access ++ last) :
    ∃ (ie done covr wign : Bool) (response : Option Response),
      Sys2Proof.core.run (accesses.length + n) s = Sys2Proof.core.run n { s with
        ie := ie, done := done, covr := covr, wign := wign, response := response, inbox := last } := by
  induction accesses generalizing s with
  | nil =>
    have hlast : last = s.inbox := by simpa using hi.symm
    exact ⟨s.ie, s.done, s.covr, s.wign, s.response, by rw [hlast, List.length_nil, Nat.zero_add]⟩
  | cons a accesses ih =>
    obtain ⟨ha0, ha⟩ := List.forall_mem_cons.mp ha
    have hstep : step s = .next (busAccess a { s with inbox := accesses.map .access ++ last }) :=
      step_access hl hi
    obtain ⟨ie, done, covr, wign, r, hacc⟩ :=
      busAccess_busy (s := { s with inbox := accesses.map .access ++ last }) hp ha0
    rw [hacc] at hstep
    obtain ⟨ie', done', covr', wign', response, hrun⟩ := ih
      { s with
        ie := ie, done := done, covr := covr, wign := wign, response := some r
        inbox := accesses.map .access ++ last } hp hl ha rfl
    exact ⟨ie', done', covr', wign', response,
      by rw [List.length_cons, Nat.succ_add, run_succ hstep, hrun]⟩

/-! ### The statements of the family -/

/-- Settles O56: the accesses leave the operands, and the commit is that of the start but for the fields
they reach. -/
theorem commandSeesTheOperandsOfItsStart : Obligations.CommandSeesTheOperandsOfItsStart := by
  intro s op accesses last rest hp hl ha hi hlast
  obtain ⟨u, hu, -⟩ := exec_onlyResults op s
  obtain ⟨ie, done, covr, wign, response, hrun⟩ := run_accesses_busy 1 accesses s hp hl ha hi
  have hcommit := step_commit
    (s := { s with ie := ie, done := done, covr := covr, wign := wign, response := response, inbox := last })
    hp hlast
  rw [exec_outside hu ie done covr wign response rest] at hcommit
  exact ⟨u, _, ie, covr, wign, response, hu, hrun.trans (run_succ hcommit 0), rfl⟩

/-- Settles O58: each load is two stores at IDLE, of the low word and then of the high word. -/
theorem ldtimeAndLdcntLoadBothWords : Obligations.LdtimeAndLdcntLoadBothWords := by
  intro s d rest hb hl
  constructor
  · intro hi
    have hrun := run_wr_wr (r := .timeLo) (r' := .timeHi) nofun nofun hl hi (operandWrite_idle _ hb)
      (operandWrite_idle _ hb)
    rwa [respond_time, withHi_withLo] at hrun
  · intro hi
    have hrun := run_wr_wr (r := .cntLo) (r' := .cntHi) nofun nofun hl hi (operandWrite_idle _ hb)
      (operandWrite_idle _ hb)
    rwa [respond_counter, withHi_withLo] at hrun

/-- Settles O16: the ignored offsets are those of ignored registers, and the reserved ranges name none. -/
theorem reservedAndReadOnlyIgnoreWrites : Obligations.ReservedAndReadOnlyIgnoreWrites := by
  refine ⟨fun s addr v h => ?_, fun s addr h4 h => ?_, fun s => busRead_aligned 0x00C rfl⟩
  · obtain ⟨hr, h4⟩ := ignoredOffset_spec h
    rw [busWrite_full _ _ h4, writeReg_ignored v s hr]
  · rw [busRead_aligned _ h4, regAt_reserved h]
    rfl

/-- Settles O19: each buffer is read by its words. -/
theorem bufferWordReadsItsFourBytes : Obligations.BufferWordReadsItsFourBytes := fun s =>
  ⟨fun k => busRead_bufferWord s.key k (r := .key k) nofun rfl,
    fun k => busRead_bufferWord s.text k (r := .text k) nofun rfl,
    fun k => busRead_bufferWord s.cand k (r := .cand k) nofun rfl,
    fun k => busRead_bufferWord s.codeTxt k (r := .codeTxt k) nofun rfl,
    fun k => busRead_bufferWord s.digest k (r := .digest k) nofun rfl⟩

/-- Settles O7: the step of an access is `busAccess`, which keeps the inbox and holds a response. -/
theorem stepOfTheHostIsItsAccess : Obligations.StepOfTheHostIsItsAccess :=
  ⟨fun _ a _ hl hi => ⟨step_access hl hi, busAccess_inbox a _, busAccess_response a _⟩, fun _ _ => rfl⟩

/-- Settles O11, by the direction of the access. -/
theorem badAccessIsRefusedWithoutEffect : Obligations.BadAccessIsRefusedWithoutEffect := by
  rintro s ⟨dir, addr, data, strb⟩
  cases dir with
  | read => exact ⟨nofun, fun _ h => busRead_misaligned s h, fun _ h => ⟨_, busRead_aligned addr h⟩⟩
  | write => exact ⟨fun _ h => busWrite_refused data s h, nofun, nofun⟩

/-- Settles O12: a read answers the register's word, and a held response is no register. -/
theorem readHasNoSideEffect : Obligations.ReadHasNoSideEffect := by
  intro s addr h4
  have hread : ∀ t d strb, busAccess ⟨.read, addr, d, strb⟩ t =
      respond ⟨false, some (readReg (regAt addr) t)⟩ t := fun _ _ _ => busRead_aligned addr h4
  refine ⟨readReg (regAt addr) s, fun d strb => ⟨hread s d strb, fun d' strb' => ?_⟩⟩
  rw [hread s, hread, readReg_respond]
  rfl

/-- Settles O20: the address map and the offsets are inverse to each other on the named registers. -/
theorem addressMapAndOffsetsAgree : Obligations.AddressMapAndOffsetsAgree :=
  ⟨fun r hr => ⟨regAt_offset hr, misaligned_false _ (offset_aligned r)⟩,
    fun addr hr hm => offset_regAt (by simpa [hm] using (misaligned_iff addr).not) hr⟩

end Sys2Proof.Machine
end

section
/-! PROOFS. Command words and host programs (spec/30_encoding.md): decoding and encoding are inverse to each
other, a placed word runs, and `ldkey` loads the key. -/

namespace Sys2Proof

/-! ### Decoding and encoding -/

/-- The words of R92, one command at a time (spec/30_encoding.md R91, R92). -/
theorem decodeWord_encode {i : Instr} (h : i.WellFormed) : decodeWord (encode i) = i := by
  cases i with
  | nop => exact Laws.DecodeEncode.nop h
  | b32Enc => exact Laws.DecodeEncode.b32Enc h
  | b32Dec => exact Laws.DecodeEncode.b32Dec h
  | hmac => exact Laws.DecodeEncode.hmac h
  | tstep => exact Laws.DecodeEncode.tstep h
  | hotp => exact Laws.DecodeEncode.hotp h
  | totp => exact Laws.DecodeEncode.totp h
  | verify => exact Laws.DecodeEncode.verify h
  | illegal w => exact Laws.DecodeEncode.illegal w h

/-- A decoded word is the word of its command (spec/30_encoding.md R91). -/
theorem encode_decodeWord (w : Word) : encode (decodeWord w) = w := by
  rcases decodeWord_cases w with
    ⟨hw, h⟩ | ⟨hw, h⟩ | ⟨hw, h⟩ | ⟨hw, h⟩ | ⟨hw, h⟩ | ⟨hw, h⟩ | ⟨hw, h⟩ | ⟨hw, h⟩ | ⟨-, h⟩ <;> rw [h]
  on_goal 9 => rfl
  all_goals exact hw.symm

/-- A well-formed command is selected by its whole word (spec/30_encoding.md R92). -/
theorem decodeWord_eq_iff {i : Instr} (hi : i.WellFormed) (w : Word) : decodeWord w = i ↔ w = encode i := by
  constructor
  · rintro rfl
    exact (encode_decodeWord w).symm
  · rintro rfl
    exact decodeWord_encode hi

/-- Exactly the illegal words decode to an illegal command (spec/30_encoding.md R93). -/
theorem decodeWord_eq_illegal_iff (w : Word) : decodeWord w = .illegal w ↔ illegalWord w = true := by
  constructor
  · intro h
    have hwf := Machine.decodeWord_wellFormed w
    rwa [h] at hwf
  · exact Laws.DecodeEncode.illegal w

/-- The decoder puts the four lanes of a word together again (spec/20_memory.md R64; log 11). -/
theorem decode_encodeBytes (i : Instr) : decode (encodeBytes i) = .ok (decodeWord (encode i)) :=
  congrArg (fun w => (.ok (decodeWord w) : Except DecodeError Instr)) (Machine.packLanes_lane (encode i))

/-- The 32 bits of a command's word, as bytes, are its lanes. -/
theorem tableBytes_encode (i : Instr) : tableBytes 32 (encode i).toNat = encodeBytes i := by
  rw [tableBytes, Nat.mod_eq_of_lt (encode i).isLt]
  rfl

/-- Settles O4: the lanes give the word back, and the word its command. -/
theorem decodeOfEncodeGivesTheCommandBack : Obligations.DecodeOfEncodeGivesTheCommandBack := fun i hi => by
  rw [decode_encodeBytes, decodeWord_encode hi]

/-- Settles O2: the selection by the whole word, eight times, and the illegal words. -/
theorem eachCommandIsSelectedByItsWholeWord : Obligations.EachCommandIsSelectedByItsWholeWord := by
  intro w
  have hsel {i : Instr} := decodeWord_eq_iff (i := i) (w := w)
  refine ⟨hsel rfl, hsel rfl, hsel rfl, hsel rfl, hsel rfl, hsel rfl, hsel rfl, hsel rfl, ?_⟩
  rw [decodeWord_eq_illegal_iff, illegalWord, Bool.or_eq_true, bne_iff_ne, decide_eq_true_iff]

/-- Settles O3: encoding undoes decoding, and decoding tells well-formed commands apart by their words. -/
theorem everyWordDecodesToExactlyOneCommand : Obligations.EveryWordDecodesToExactlyOneCommand := fun w =>
  ⟨decodeWord w, rfl, Machine.decodeWord_wellFormed w, encode_decodeWord w,
    fun _ hj h => ((decodeWord_eq_iff hj w).mpr h.symm).symm⟩

/-- Settles O1: the listed bytes are the lanes of ten well-formed commands. -/
theorem listedWordsDecodeToTheirCommands : Obligations.ListedWordsDecodeToTheirCommands :=
  have h := decodeOfEncodeGivesTheCommandBack
  ⟨h .nop rfl, h .b32Enc rfl, h .b32Dec rfl, h .hmac rfl, h .tstep rfl, h .hotp rfl, h .totp rfl,
    h .verify rfl, h (.illegal 0x00000008) rfl, h (.illegal 0x80000003) rfl⟩

namespace Machine

/-! ### A placed command word -/

theorem decodeTableWord_encode {i : Instr} (hi : i.WellFormed) :
    decodeTableWord 32 (encode i).toNat = some i := by
  rw [decodeTableWord, tableBytes_encode, decode_encodeBytes, decodeWord_encode hi]
  rfl

/-- A word that decodes is placed as a start with the engine's turn next (log 2). -/
theorem withFetchWord_of_decodes {nbits w : Nat} {op : Instr} (h : decodeTableWord nbits w = some op)
    (s : State) :
    s.withFetchWord nbits w = { start op s with inbox := .engineTurn :: s.inbox, rstLow := false } := by
  rw [State.withFetchWord, placeCommand, h]

/-- Settles O6: the placed word is started, and the engine's turn commits it. -/
theorem placedWordRunsInTheNextStep : Obligations.PlacedWordRunsInTheNextStep := by
  intro s i hi
  have hdec := decodeTableWord_encode hi
  refine ⟨hdec, ?_⟩
  rw [withFetchWord_of_decodes hdec]
  exact step_commit rfl (.inr rfl)

/-! ### `ldkey` -/

/-- Word `k` of a buffer after a write of word `k` of another one. -/
theorem setBufferWord_bufferWord_getElem {n : Nat} (dst src : Vector Byte n) (k i : Nat) (h : i < n) :
    (setBufferWord dst k (bufferWord src k))[i] = if i / 4 = k then src[i] else dst[i] := by
  rw [setBufferWord_getElem]
  split
  next hk => rw [lane_bufferWord _ _ _ (by omega), byteAt_getElem _ _ (by omega)]; congr 1; omega
  next => rfl

/-- Buffers that agree on their first bytes. -/
theorem takeBytes_congr {n len : Nat} {a b : Vector Byte n}
    (h : ∀ (i : Nat) (hn : i < n), i < len → a[i] = b[i]) :
    takeBytes a len = takeBytes b len := by
  apply List.ext_getElem
  · simp
  · intro i h1 h2
    rw [takeBytes_length, Nat.lt_min] at h1
    simpa [takeBytes] using h i h1.2 h1.1

/-- The write of word `k` of `src` to word `k` of KEY. -/
def keyStore (src : Vector Byte 64) (k : Nat) : Event :=
  wrAt (BitVec.ofNat 12 (0x100 + 4 * k)) (bufferWord src k)

/-- `ldkey` writes the first words of the key, extended by 0x00, and then KLEN (spec/30_encoding.md R98). -/
theorem ldkey_eq {bytes : List Byte} (h : bytes.length ≤ 64) :
    ldkey bytes = (List.range' 0 ((bytes.length + 3) / 4)).map (keyStore (fillBuffer 64 bytes)) ++
      [wr .klen (BitVec.ofNat 32 bytes.length)] := by
  rw [ldkey, loadWords, List.range_eq_range']
  refine congrArg (· ++ _) (List.map_congr_left fun k hk => ?_)
  rw [List.mem_range'_1] at hk
  simp only [keyStore, bufferWord]
  rw [byteAt_fillBuffer _ _ _ (by omega), byteAt_fillBuffer _ _ _ (by omega),
    byteAt_fillBuffer _ _ _ (by omega), byteAt_fillBuffer _ _ _ (by omega)]

/-- At IDLE, the write of one word of KEY is one step. -/
theorem step_keyStore {src : Vector Byte 64} {k : Nat} {s : State} {rest : List Event} (hk : k < 16)
    (hp : s.phase = .idle) (hl : s.rstLow = false) (hi : s.inbox = keyStore src k :: rest) :
    step s = .next { s with
      key := setBufferWord s.key k (bufferWord src k), response := some ⟨false, none⟩, inbox := rest } := by
  have hstored : writeReg (.key ⟨k, hk⟩) (bufferWord src k) { s with inbox := rest } =
      { s with key := setBufferWord s.key k (bufferWord src k), inbox := rest } :=
    operandWrite_idle _ (busy_eq_false_iff.mpr hp)
  rw [step_wr (r := .key ⟨k, hk⟩) nofun hl hi, hstored]
  rfl

/-- At IDLE, the write of KLEN is one step, which keeps the low seven bits (spec/10_state.md R41). -/
theorem step_klenStore {v : Word} {s : State} {rest : List Event} (hp : s.phase = .idle)
    (hl : s.rstLow = false) (hi : s.inbox = wr .klen v :: rest) :
    step s = .next { s with klen := v.extractLsb' 0 7, response := some ⟨false, none⟩, inbox := rest } := by
  have hstored : writeReg .klen v { s with inbox := rest } =
      { s with klen := v.extractLsb' 0 7, inbox := rest } := operandWrite_idle _ (busy_eq_false_iff.mpr hp)
  rw [step_wr (r := .klen) nofun hl hi, hstored]
  rfl

/-- At IDLE, the writes of `n` words from word `k` on change the bytes of these words and no other byte. -/
theorem run_keyStores (src : Vector Byte 64) (last : List Event) (m n k : Nat) (s : State) (hk : k + n ≤ 16)
    (hp : s.phase = .idle) (hl : s.rstLow = false)
    (hi : s.inbox = (List.range' k n).map (keyStore src) ++ last) :
    ∃ (key : Vector Byte 64) (response : Option Response),
      Sys2Proof.core.run (n + m) s =
        Sys2Proof.core.run m { s with key := key, response := response, inbox := last } ∧
      ∀ (i : Nat) (h : i < 64), key[i] = if k ≤ i / 4 ∧ i / 4 < k + n then src[i] else s.key[i] := by
  induction n generalizing k s with
  | zero =>
    have hlast : last = s.inbox := by simpa using hi.symm
    exact ⟨s.key, s.response, by rw [hlast, Nat.zero_add], fun i _ => by rw [if_neg (by omega)]⟩
  | succ n ih =>
    rw [List.range'_succ, List.map_cons, List.cons_append] at hi
    have hstep := step_keyStore (by omega) hp hl hi
    obtain ⟨key, response, hrun, hkey⟩ := ih (k + 1)
      { s with
        key := setBufferWord s.key k (bufferWord src k), response := some ⟨false, none⟩
        inbox := (List.range' (k + 1) n).map (keyStore src) ++ last } (by omega) hp hl rfl
    refine ⟨key, response, by rw [Nat.succ_add, run_succ hstep, hrun], fun i h => ?_⟩
    rw [hkey i h, setBufferWord_bufferWord_getElem]
    by_cases hi' : k + 1 ≤ i / 4 ∧ i / 4 < k + 1 + n
    · rw [if_pos hi', if_pos (by omega)]
    · rw [if_neg hi']
      exact if_congr (by omega) rfl rfl

theorem klenBits_toNat {n : Nat} (h : n ≤ 64) : ((BitVec.ofNat 32 n).extractLsb' 0 7).toNat = n := by
  simp only [BitVec.extractLsb'_toNat, BitVec.toNat_ofNat, Nat.shiftRight_zero]
  omega

/-- Settles O57: the words of the key are stored, then its length. -/
theorem ldkeyLoadsTheKey : Obligations.LdkeyLoadsTheKey := by
  intro s bytes rest hlen hb hl hi
  rw [ldkey_eq hlen] at hi ⊢
  rw [List.append_assoc] at hi
  have hp := busy_eq_false_iff.mp hb
  obtain ⟨key, response, hrun, hkey⟩ := run_keyStores (fillBuffer 64 bytes) _ 1 _ 0 s (by omega) hp hl hi
  have hstep := step_klenStore (v := BitVec.ofNat 32 bytes.length) (rest := rest)
    (s := { s with key := key, response := response, inbox := wr .klen (BitVec.ofNat 32 bytes.length) :: rest })
    hp hl rfl
  have hklen := klenBits_toNat hlen
  refine ⟨{ s with
    key := key, klen := (BitVec.ofNat 32 bytes.length).extractLsb' 0 7, response := some ⟨false, none⟩
    inbox := rest }, ?_, rfl, ?_, hklen, fun i h => ?_⟩
  · rw [List.length_append, List.length_map, List.length_range']
    exact hrun.trans (run_succ hstep 0)
  · have hsame : takeBytes key bytes.length = takeBytes (fillBuffer 64 bytes) bytes.length :=
      takeBytes_congr fun i hn h => by rw [hkey i hn, if_pos (by omega)]
    exact (congrArg (takeBytes key) hklen).trans (hsame.trans (takeBytes_fillBuffer 64 bytes hlen))
  · exact (hkey i i.isLt).trans (if_neg (by omega))

end Machine

end Sys2Proof
end

section
/-! PROOFS. The Base32 codec and its commands (spec/40_base32.md): the characters and bytes that B32_ENC and
B32_DEC write, the round trip, and what the decoder ignores. -/

namespace Sys2Proof.Machine

/-! ### The decoder by the conditions of its checks -/

section decoder

variable {text chars : List Byte}

theorem base32Decode_badCharacter (h : StrippedText text chars) (hb : BadCharacter chars) :
    base32Decode text = .error .invalidEncoding := by
  obtain ⟨-, he⟩ | ⟨vs, hv, -⟩ := base32Decode_cases h
  · exact he
  · rw [charValues_eq_none.mpr hb] at hv; cases hv

theorem base32Decode_badLength (h : StrippedText text chars) (hb : BadLength chars) :
    base32Decode text = .error .invalidEncoding := by
  obtain ⟨-, he⟩ | ⟨_, -, -, ⟨-, he⟩ | ⟨hn, -⟩ | ⟨hn, -⟩⟩ := base32Decode_cases h
  · exact he
  · exact he
  · exact absurd hb hn
  · exact absurd hb hn

theorem base32Decode_tooMuch (h : StrippedText text chars) (hc : ¬ BadCharacter chars) (hl : ¬ BadLength chars)
    (hm : 64 < 5 * chars.length / 8) : base32Decode text = .error .capacityExceeded := by
  obtain ⟨hb, -⟩ | ⟨_, -, -, ⟨hb, -⟩ | ⟨-, -, he⟩ | ⟨-, hn, -⟩⟩ := base32Decode_cases h
  · exact absurd hb hc
  · exact absurd hb hl
  · exact he
  · exact absurd hm (Nat.not_lt.mpr hn)

theorem base32Decode_ok {vs : List Nat} (h : StrippedText text chars) (hv : charValues chars = some vs)
    (hl : ¬ BadLength chars) (hm : 5 * chars.length / 8 ≤ 64) :
    base32Decode text = .ok (decodeFrom 0 0 vs) := by
  obtain ⟨hb, -⟩ | ⟨_, hv', -, ⟨hb, -⟩ | ⟨-, hn, -⟩ | ⟨-, -, he⟩⟩ := base32Decode_cases h
  · rw [charValues_eq_none.mpr hb] at hv; cases hv
  · exact absurd hb hl
  · exact absurd hn (Nat.not_lt.mpr hm)
  · cases hv.symm.trans hv'; exact he

end decoder

/-! ### A byte string in a buffer, with its length in a register -/

theorem fillBuffer_getElem_tail {n : Nat} {bytes : List Byte} (i : Fin n) (h : bytes.length ≤ i.val) :
    (fillBuffer n bytes)[i] = 0 :=
  (fillBuffer_getElem n bytes i i.isLt).trans (List.getD_eq_default _ _ h)

/-- The length register is wide enough for every string that fits the buffer. -/
theorem takeBytes_fillBuffer_ofNat {n w : Nat} {bytes : List Byte} (h : bytes.length ≤ n) (hn : n < 2 ^ w) :
    takeBytes (fillBuffer n bytes) (BitVec.ofNat w bytes.length).toNat = bytes := by
  rw [BitVec.toNat_ofNat, Nat.mod_eq_of_lt (h.trans_lt hn), takeBytes_fillBuffer n bytes h]

/-! ### Lengths and bits of a whole encoding or decoding -/

theorem pendingBits_empty (acc : Nat) (more : Nat → Bool) : pendingBits acc 0 more = more := rfl

/-- Bit `b` of byte `j` of a decoding (spec/40_base32.md R114). -/
theorem decodeFrom_start_getMsbD {vs : List Nat} {j b : Nat} (hv : ∀ v ∈ vs, v < 32)
    (hj : j < 5 * vs.length / 8) (hb : b < 8) :
    ((decodeFrom 0 0 vs).getD j 0).getMsbD b = valueBit vs (8 * j + b) := by
  rw [decodeFrom_getMsbD vs 0 0 j b hv (by decide) (by omega) hb, pendingBits_empty]

theorem decodeFrom_start_length (vs : List Nat) : (decodeFrom 0 0 vs).length = 5 * vs.length / 8 := by
  rw [decodeFrom_length _ _ _ (by decide), Nat.zero_add]

/-- TLEN holds the length of the encoding, at most 103 (spec/40_base32.md R113). -/
theorem encoded_tlen_toNat {s : State} (h : s.klen.toNat ≤ 64) :
    (BitVec.ofNat 8 (base32Encode s.keyBytes).length).toNat = (8 * s.klen.toNat + 4) / 5 := by
  rw [base32Encode_length, keyBytes_length h, BitVec.toNat_ofNat, Nat.mod_eq_of_lt (by omega)]

/-- KLEN holds the length of a decoding that fits the key buffer. -/
theorem decoded_klen_toNat {vs : List Nat} (h : 5 * vs.length / 8 ≤ 64) :
    (BitVec.ofNat 7 (decodeFrom 0 0 vs).length).toNat = 5 * vs.length / 8 := by
  rw [decodeFrom_start_length, BitVec.toNat_ofNat, Nat.mod_eq_of_lt (by omega)]

/-! ### Decoding an encoding -/

/-- The values of the characters of an encoding (spec/40_base32.md R113). -/
def encodedValues (bytes : List Byte) : List Nat :=
  (List.range ((8 * bytes.length + 4) / 5)).map (bitGroup bytes)

@[simp] theorem encodedValues_length (bytes : List Byte) :
    (encodedValues bytes).length = (8 * bytes.length + 4) / 5 := by simp [encodedValues]

theorem encodedValues_lt {bytes : List Byte} : ∀ v ∈ encodedValues bytes, v < 32 := by
  intro v hv
  obtain ⟨j, -, rfl⟩ := List.mem_map.mp hv
  exact groupOf_lt (bitOf bytes) j

theorem base32Encode_eq_map (bytes : List Byte) : base32Encode bytes = (encodedValues bytes).map alpha := by
  apply List.ext_getElem
  · simp [base32Encode_length]
  · intro j h1 h2
    have hj := base32Encode_getD bytes j (by rwa [base32Encode_length] at h1)
    rw [List.getD_eq_getElem _ _ h1] at hj
    simpa [encodedValues] using hj

theorem charValues_map_alpha {vs : List Nat} (h : ∀ v ∈ vs, v < 32) : charValues (vs.map alpha) = some vs := by
  rw [charValues_eq_some, List.map_map]
  exact List.map_congr_left fun v hv => charValue_alpha v (h v hv)

/-- An encoding ends with no padding (spec/40_base32.md R113). -/
theorem base32Encode_stripped (bytes : List Byte) : StrippedText (base32Encode bytes) (base32Encode bytes) := by
  refine ⟨⟨0, (List.append_nil _).symm⟩, fun hlast => ?_⟩
  have hmem := List.mem_of_getLast? hlast
  rw [base32Encode_eq_map] at hmem
  obtain ⟨v, hv, hpad⟩ := List.mem_map.mp hmem
  exact alpha_ne_pad v (encodedValues_lt v hv) hpad

/-- The values of an encoding carry the bits of the bytes in order. -/
theorem valueBit_encodedValues {bytes : List Byte} {i : Nat} (h : i < 8 * bytes.length) :
    valueBit (encodedValues bytes) i = bitOf bytes i := by
  have hgroup : (encodedValues bytes).getD (i / 5) 0 = groupOf (bitOf bytes) (i / 5) := by
    rw [List.getD_eq_getElem _ _ (by rw [encodedValues_length]; omega)]
    simp [encodedValues, bitGroup_eq]
  rw [valueBit, hgroup, testBit_groupOf _ _ _ (Nat.mod_lt i (by decide)), Nat.div_add_mod]

theorem bitOf_byte (bytes : List Byte) (j : Nat) {b : Nat} (h : b < 8) :
    bitOf bytes (8 * j + b) = (bytes.getD j 0).getMsbD b := by
  rw [bitOf, show (8 * j + b) / 8 = j by omega, show (8 * j + b) % 8 = b by omega]

/-- Reading the values of an encoding gives the bytes back; the fill of the last group is dropped. -/
theorem decodeFrom_encodedValues (bytes : List Byte) : decodeFrom 0 0 (encodedValues bytes) = bytes := by
  have hlen : (decodeFrom 0 0 (encodedValues bytes)).length = bytes.length := by
    rw [decodeFrom_start_length, encodedValues_length]; omega
  apply List.ext_getElem hlen
  intro j h1 h2
  apply BitVec.eq_of_getMsbD_eq
  intro b hb
  rw [← List.getD_eq_getElem _ 0 h1, ← List.getD_eq_getElem _ 0 h2,
    decodeFrom_start_getMsbD encodedValues_lt (by rwa [decodeFrom_start_length] at h1) hb,
    valueBit_encodedValues (by omega), bitOf_byte _ _ hb]

/-- The round trip on byte strings that fit the key buffer (spec/40_base32.md R120). -/
theorem base32Decode_base32Encode {bytes : List Byte} (h : bytes.length ≤ 64) :
    base32Decode (base32Encode bytes) = .ok bytes := by
  have hv : charValues (base32Encode bytes) = some (encodedValues bytes) := by
    rw [base32Encode_eq_map, charValues_map_alpha encodedValues_lt]
  have hl : ¬ BadLength (base32Encode bytes) := by rw [BadLength, base32Encode_length]; omega
  have hm : 5 * (base32Encode bytes).length / 8 ≤ 64 := by rw [base32Encode_length]; omega
  rw [base32Decode_ok (base32Encode_stripped bytes) hv hl hm, decodeFrom_encodedValues]

/-! ### Case and padding in the decoder -/

theorem stripPadding_map_lowerCase (text : List Byte) :
    stripPadding (text.map lowerCase) = (stripPadding text).map lowerCase := by
  have hpad : ((fun ch : Byte => ch == 0x3D) ∘ lowerCase) = fun ch => ch == 0x3D :=
    funext fun ch => Bool.eq_iff_iff.mpr (by simpa using lowerCase_pad ch)
  rw [stripPadding, stripPadding, ← List.map_reverse, List.dropWhile_map, hpad, List.map_reverse]

theorem charValues_map_lowerCase (chars : List Byte) :
    charValues (chars.map lowerCase) = charValues chars := by
  induction chars with
  | nil => rfl
  | cons ch chars ih => rw [List.map_cons, charValues, charValues, charValue_lowerCase, ih]

theorem base32Decode_map_lowerCase (text : List Byte) :
    base32Decode (text.map lowerCase) = base32Decode text := by
  rw [base32Decode, base32Decode, stripPadding_map_lowerCase, charValues_map_lowerCase]

theorem stripPadding_append_padding (text : List Byte) (r : Nat) :
    stripPadding (text ++ List.replicate r 0x3D) = stripPadding text := by
  obtain ⟨⟨n, hn⟩, hlast⟩ := stripPadding_stripped text
  refine stripPadding_eq ⟨⟨n + r, ?_⟩, hlast⟩
  rw [← List.replicate_append_replicate, ← List.append_assoc, ← hn]

theorem base32Decode_append_padding (text : List Byte) (r : Nat) :
    base32Decode (text ++ List.replicate r 0x3D) = base32Decode text := by
  rw [base32Decode, base32Decode, stripPadding_append_padding]

/-- Texts that decode alike give B32_DEC the same completion code and the same key. -/
theorem execB32Dec_congr {s s' : State} (h : s.tlen.toNat ≤ 128) (h' : s'.tlen.toNat ≤ 128)
    (hd : base32Decode s'.textBytes = base32Decode s.textBytes) :
    ∃ t t', execB32Dec s = .next t ∧ execB32Dec s' = .next t' ∧ t'.err = t.err ∧
      (t.err = .ok → t'.key = t.key ∧ t'.klen = t.klen) := by
  cases hs : base32Decode s.textBytes with
  | error e =>
    exact ⟨_, _, execB32Dec_error h hs, execB32Dec_error h' (hd.trans hs), rfl,
      fun he => absurd he (base32Decode_error_ne_ok hs)⟩
  | ok bytes => exact ⟨_, _, execB32Dec_ok h hs, execB32Dec_ok h' (hd.trans hs), rfl, fun _ => ⟨rfl, rfl⟩⟩

/-! ### The statements of the family -/

/-- Settles O32: character `j` of an encoding is that of the `j`-th bit group, and the buffer is 0x00 after
the encoding. -/
theorem base32EncodeWritesTheBitGroups : Obligations.Base32EncodeWritesTheBitGroups := by
  refine fun s => ⟨fun h => ?_, execB32Enc_long⟩
  have htlen := encoded_tlen_toNat h
  have hlen : (base32Encode s.keyBytes).length = (8 * s.klen.toNat + 4) / 5 := by
    rw [base32Encode_length, keyBytes_length h]
  refine ⟨_, execB32Enc_ok h, rfl, htlen, fun j hj v hv => ?_,
    fun j hj => fillBuffer_getElem_tail j (hlen.trans_le (htlen ▸ hj))⟩
  have hchar : (fillBuffer 128 (base32Encode s.keyBytes))[j] = alpha v := by
    rw [Fin.getElem_fin, fillBuffer_getElem, base32Encode_getD, hv]
    · rfl
    · rw [keyBytes_length h]
      exact hj.trans_eq htlen
  exact (congrArg BitVec.toNat hchar).trans (alpha_toNat v (hv ▸ groupOf_lt (bitOf s.keyBytes) j))

/-- Settles O33: each failing check by its condition, and else the bits of the decoding. -/
theorem base32DecodeFollowsTheChecksInOrder : Obligations.Base32DecodeFollowsTheChecksInOrder := by
  refine fun s => ⟨execB32Dec_long, fun chars h hs => ⟨fun hb => ?_, fun _ hb => ?_, fun hc hl hm => ?_,
    fun values hlen hvals hl hm => ?_⟩⟩
  · exact execB32Dec_error h (base32Decode_badCharacter hs hb)
  · exact execB32Dec_error h (base32Decode_badLength hs hb)
  · exact execB32Dec_error h (base32Decode_tooMuch hs hc hl hm)
  · have hv : charValues chars = some values := charValues_eq_some_iff.mpr ⟨hlen, hvals⟩
    have hexec := execB32Dec_ok h (base32Decode_ok hs hv hl hm)
    rw [← hlen] at hm ⊢
    have hklen := decoded_klen_toNat hm
    refine ⟨_, hexec, rfl, hklen, fun j hj b => ?_,
      fun j hj => fillBuffer_getElem_tail j ((decodeFrom_start_length values).trans_le (hklen ▸ hj))⟩
    exact (congrArg (·.getMsbD b.val) (fillBuffer_getElem _ _ _ j.isLt)).trans
      (decodeFrom_start_getMsbD (charValues_lt hv) (hklen ▸ hj) b.isLt)

/-- Settles O34: B32_DEC reads the encoding of the key, which decodes to the key. -/
theorem base32RoundTripRestoresTheKey : Obligations.Base32RoundTripRestoresTheKey := by
  intro s h
  refine ⟨_, execB32Enc_ok h, rfl, fun t' ⟨htlen, htext⟩ => ?_⟩
  have hk := keyBytes_length h
  have hfits : s.keyBytes.length ≤ 64 := hk.trans_le h
  have hshort : (base32Encode s.keyBytes).length ≤ 128 := by rw [base32Encode_length]; omega
  have ht' : t'.tlen.toNat ≤ 128 := by
    rw [← htlen]
    exact (encoded_tlen_toNat h).trans_le (by omega)
  have hbytes : t'.textBytes = base32Encode s.keyBytes :=
    htext.symm.trans (takeBytes_fillBuffer_ofNat hshort (by decide))
  have hdecode : base32Decode t'.textBytes = .ok s.keyBytes := by
    rw [hbytes, base32Decode_base32Encode hfits]
  have hklen : BitVec.ofNat 7 s.keyBytes.length = s.klen := by rw [hk, BitVec.ofNat_toNat, BitVec.setWidth_eq]
  exact ⟨_, execB32Dec_ok ht' hdecode, rfl, hklen, takeBytes_fillBuffer_ofNat hfits (by decide)⟩

/-- Settles O35: the decoder ignores case and padding, and B32_DEC depends on its answer alone. -/
theorem base32DecodeIgnoresCaseAndPadding : Obligations.Base32DecodeIgnoresCaseAndPadding := by
  refine ⟨fun s s' h h' htext => execB32Dec_congr h h' ?_, fun text r =>
    ⟨base32Decode_map_lowerCase text, base32Decode_append_padding text r⟩⟩
  obtain hlower | ⟨r, hpadded⟩ := htext
  · exact (congrArg base32Decode hlower).trans (base32Decode_map_lowerCase _)
  · exact (congrArg base32Decode hpadded).trans (base32Decode_append_padding _ r)

end Sys2Proof.Machine
end

section
/-! PROOFS. SHA-1, HMAC and HOTP (spec/41_hmac_hotp.md): the padding, the schedule and the rounds, what HMAC
and HOTP write, and that every command's commit is a function of its operands. -/

namespace Sys2Proof.Machine

/-! ### SHA-1 -/

/-- The four bytes of a word, written with shifts (spec/41_hmac_hotp.md R146). -/
theorem be32Bytes_eq (w : Word) :
    be32Bytes w = [(w >>> 24).setWidth 8, (w >>> 16).setWidth 8, (w >>> 8).setWidth 8, w.setWidth 8] := by
  simp [be32Bytes, lane_eq]

/-- The padding leaves 56 bytes in the last block (spec/41_hmac_hotp.md R141). -/
theorem zeroPad_mod (n : Nat) : (n + 1 + (119 - n % 64) % 64) % 64 = 56 := by omega

/-- No shorter padding does (spec/41_hmac_hotp.md R141). -/
theorem zeroPad_least {n y : Nat} (h : y < (119 - n % 64) % 64) : (n + 1 + y) % 64 ≠ 56 := by omega

theorem sha1Pad_blocks (m : List Byte) : (sha1Pad m).length % 64 = 0 := by
  rw [sha1Pad_length]
  omega

@[simp] theorem schedule_length (block : List Byte) : (schedule block).length = 80 := by simp [schedule]

/-- The first sixteen words are those of the block (spec/41_hmac_hotp.md R143). -/
theorem schedule_getD_block (block : List Byte) {t : Nat} (h : t < 16) :
    (schedule block).getD t 0 = be32 block (4 * t) := by
  have hword := schedule_getD block 0 (15 - t) (by decide) (by omega)
  rw [show 15 + 0 - (15 - t) = t by omega] at hword
  rw [hword, extendSchedule, List.getD_eq_getElem?_getD, List.getElem?_reverse (by simp; omega),
    blockWords_length, show 16 - 1 - (15 - t) = t by omega]
  simp [blockWords, h]

/-- The other words follow from the words before them (spec/41_hmac_hotp.md R143). -/
theorem schedule_getD_succ (block : List Byte) {n : Nat} (h : n < 64) :
    (schedule block).getD (16 + n) 0 =
      rotl 1 ((schedule block).getD (13 + n) 0 ^^^ (schedule block).getD (8 + n) 0 ^^^
        (schedule block).getD (2 + n) 0 ^^^ (schedule block).getD n 0) := by
  have hback : ∀ j ≤ 15, (extendSchedule n (blockWords block).reverse).getD j 0 =
      (schedule block).getD (15 + n - j) 0 := fun j hj => (schedule_getD block n j h.le (by omega)).symm
  have hnext := schedule_getD block (n + 1) 0 h (Nat.zero_le _)
  rw [extendSchedule_succ, List.getD_cons_zero, nextWord, hback 2 (by decide), hback 7 (by decide),
    hback 13 (by decide), hback 15 (by decide)] at hnext
  rw [show 16 + n = 15 + (n + 1) - 0 by omega, hnext, show 15 + n - 2 = 13 + n by omega,
    show 15 + n - 7 = 8 + n by omega, show 15 + n - 13 = 2 + n by omega, show 15 + n - 15 = n by omega]

/-- The working variables before round `t` of a compression (spec/41_hmac_hotp.md R145). -/
def roundState (h : HashState) (block : List Byte) (t : Nat) : HashState :=
  sha1Rounds 0 ((schedule block).take t) h

theorem roundState_succ (h : HashState) (block : List Byte) {t : Nat} (ht : t < 80) :
    roundState h block (t + 1) = sha1Round (roundState h block t) t ((schedule block).getD t 0) :=
  sha1Rounds_take_succ _ _ _ (by rwa [schedule_length])

/-- A compression adds the working variables after the last round (spec/41_hmac_hotp.md R145). -/
theorem compress_eq_roundState (h : HashState) (block : List Byte) :
    compress h block =
      ⟨h.a + (roundState h block 80).a, h.b + (roundState h block 80).b, h.c + (roundState h block 80).c,
        h.d + (roundState h block 80).d, h.e + (roundState h block 80).e⟩ := by
  rw [roundState, List.take_of_length_le (schedule_length block).le]
  rfl

theorem sha1Round_eq (h : HashState) (t : Nat) (w : Word) :
    sha1Round h t w =
      ⟨h.a.rotateLeft 5 + roundFn t h.b h.c h.d + h.e + roundConst t + w, h.a, h.b.rotateLeft 30, h.c,
        h.d⟩ := by
  rw [sha1Round, rotl_eq 5 _ (by decide), rotl_eq 30 _ (by decide)]

/-! ### What HMAC and HOTP write -/

/-- DIGEST holds the whole MAC of the claims. -/
theorem digest_toList {s : State} (h : s.klen.toNat ≤ 64) (c : DWord) :
    (fillBuffer 20 (counterMac s.keyBytes c)).toList = s.macOf c := by
  rw [fillBuffer_toList _ _ (counterMac_length _ _), counterMac_eq h]

/-! ### Commits with the same operands -/

/-- The commits of `op` on two states agree in ERR and VALID, and on success in the results
(spec/41_hmac_hotp.md R157). -/
def CommitsAgree (op : Instr) (s s' : State) : Prop :=
  ∃ t t', exec op s = .next t ∧ exec op s' = .next t' ∧ t.err = t'.err ∧ t.valid = t'.valid ∧
    (t.err = .ok → SameResults op t t')

theorem commitsAgree_failed {op : Instr} {s s' : State} {e : Completion}
    (h : exec op s = .next (commit e false s)) (h' : exec op s' = .next (commit e false s'))
    (he : e ≠ .ok := by decide) : CommitsAgree op s s' :=
  ⟨_, _, h, h', rfl, rfl, fun hok => absurd hok he⟩

theorem commitsAgree_completed {op : Instr} {s s' r r' : State} {v : Bool}
    (h : exec op s = .next (commit .ok v r)) (h' : exec op s' = .next (commit .ok v r'))
    (hr : SameResults op (commit .ok v r) (commit .ok v r')) : CommitsAgree op s s' :=
  ⟨_, _, h, h', rfl, rfl, fun _ => hr⟩

section operands

variable {s s' : State}

theorem legalConfig_congr (ha : s.alg = s'.alg) (hd : s.digits = s'.digits) :
    s.LegalConfig ↔ s'.LegalConfig := by
  simp only [State.LegalConfig, ha, hd]

theorem legalTimeStep_congr (hst : s.stepReg = s'.stepReg) (ht : s.time = s'.time) :
    s.LegalTimeStep ↔ s'.LegalTimeStep := by
  simp only [State.LegalTimeStep, hst, ht]

theorem timeCounter_congr (hst : s.stepReg = s'.stepReg) (ht : s.time = s'.time) :
    s.timeCounter = s'.timeCounter := by
  simp only [State.timeCounter, hst, ht]

/-- The HOTP results follow from the key, the code length and the counter. -/
theorem withHotpResults_sameResults {c c' : DWord} (hk : s.keyBytes = s'.keyBytes)
    (hd : s.digits = s'.digits) (hc : c = c') :
    SameResults .hotp (withHotpResults c s) (withHotpResults c' s') := by
  simp [SameResults, hk, hd, hc]

theorem candidateValid_congr (hd : s.digits = s'.digits) (hw : s.window = s'.window)
    (hk : s.keyBytes = s'.keyBytes) (hst : s.stepReg = s'.stepReg) (ht : s.time = s'.time)
    (hl : s.clen = s'.clen) (hcand : s.candBytes = s'.candBytes) :
    s.candidateValid = s'.candidateValid := by
  simp only [State.candidateValid, hd, hw, hk, hl, hcand, timeCounter_congr hst ht]

theorem b32Enc_commitsAgree (h : SameOperands .b32Enc s s') : CommitsAgree .b32Enc s s' := by
  obtain ⟨hklen, hkey⟩ := h
  rcases Nat.lt_or_ge 64 s.klen.toNat with hk | hk
  · exact commitsAgree_failed (execB32Enc_long hk) (execB32Enc_long (hklen ▸ hk))
  · exact commitsAgree_completed (execB32Enc_ok hk) (execB32Enc_ok (hklen ▸ hk)) (by simp [SameResults, hkey])

theorem b32Dec_commitsAgree (h : SameOperands .b32Dec s s') : CommitsAgree .b32Dec s s' := by
  obtain ⟨htlen, htext⟩ := h
  rcases Nat.lt_or_ge 128 s.tlen.toNat with hl | hl
  · exact commitsAgree_failed (execB32Dec_long hl) (execB32Dec_long (htlen ▸ hl))
  · obtain ⟨t, t', ht, ht', herr, hres⟩ := execB32Dec_congr hl (htlen ▸ hl) (congrArg base32Decode htext.symm)
    exact ⟨t, t', ht, ht', herr.symm,
      (exec_valid_false (op := .b32Dec) ht nofun).trans (exec_valid_false (op := .b32Dec) ht' nofun).symm,
      fun hok => ⟨(hres hok).1.symm, (hres hok).2.symm⟩⟩

theorem hmac_commitsAgree (h : SameOperands .hmac s s') : CommitsAgree .hmac s s' := by
  obtain ⟨halg, hklen, hkey, hcounter⟩ := h
  rcases Nat.lt_or_ge 64 s.klen.toNat with hk | hk
  · exact commitsAgree_failed (execHmac_long hk) (execHmac_long (hklen ▸ hk))
  by_cases ha : s.alg = 0
  · exact commitsAgree_completed (execHmac_ok hk ha) (execHmac_ok (hklen ▸ hk) (halg ▸ ha))
      (by simp [SameResults, hkey, hcounter])
  · exact commitsAgree_failed (execHmac_bad hk ha) (execHmac_bad (hklen ▸ hk) (halg ▸ ha))

theorem tstep_commitsAgree (h : SameOperands .tstep s s') : CommitsAgree .tstep s s' := by
  obtain ⟨hst, ht⟩ := h
  have hlegal := legalTimeStep_congr hst ht
  by_cases hl : s.LegalTimeStep
  · exact commitsAgree_completed (execTstep_ok hl) (execTstep_ok (hlegal.mp hl)) (timeCounter_congr hst ht)
  · exact commitsAgree_failed (execTstep_bad hl) (execTstep_bad (hlegal.not.mp hl))

theorem hotp_commitsAgree (h : SameOperands .hotp s s') : CommitsAgree .hotp s s' := by
  obtain ⟨halg, hdigits, hklen, hkey, hcounter⟩ := h
  have hlegal := legalConfig_congr halg hdigits
  rcases Nat.lt_or_ge 64 s.klen.toNat with hk | hk
  · exact commitsAgree_failed (execHotp_long hk) (execHotp_long (hklen ▸ hk))
  by_cases hc : s.LegalConfig
  · exact commitsAgree_completed (execHotp_ok hk hc) (execHotp_ok (hklen ▸ hk) (hlegal.mp hc))
      (withHotpResults_sameResults hkey hdigits hcounter)
  · exact commitsAgree_failed (execHotp_bad hk hc) (execHotp_bad (hklen ▸ hk) (hlegal.not.mp hc))

theorem totp_commitsAgree (h : SameOperands .totp s s') : CommitsAgree .totp s s' := by
  obtain ⟨halg, hdigits, hklen, hkey, hst, ht⟩ := h
  have hlegal := and_congr (legalConfig_congr halg hdigits) (legalTimeStep_congr hst ht)
  rcases Nat.lt_or_ge 64 s.klen.toNat with hk | hk
  · exact commitsAgree_failed (execTotp_long hk) (execTotp_long (hklen ▸ hk))
  by_cases hc : s.LegalConfig ∧ s.LegalTimeStep
  · have hcounter := timeCounter_congr hst ht
    have hc' := hlegal.mp hc
    exact commitsAgree_completed (execTotp_ok hk hc.1 hc.2) (execTotp_ok (hklen ▸ hk) hc'.1 hc'.2)
      ⟨hcounter, withHotpResults_sameResults (s := { s with counter := s.timeCounter })
        (s' := { s' with counter := s'.timeCounter }) hkey hdigits hcounter⟩
  · exact commitsAgree_failed (execTotp_bad hk (not_and_or.mp hc))
      (execTotp_bad (hklen ▸ hk) (not_and_or.mp (hlegal.not.mp hc)))

theorem verify_commitsAgree (h : SameOperands .verify s s') : CommitsAgree .verify s s' := by
  obtain ⟨halg, hdigits, hwindow, hklen, hkey, hst, ht, hclen, hcand⟩ := h
  have hlegal := and_congr (legalConfig_congr halg hdigits) (legalTimeStep_congr hst ht)
  by_cases hlong : 64 < s.klen.toNat ∨ 12 < s.clen.toNat
  · exact commitsAgree_failed (execVerify_long hlong) (execVerify_long (hklen ▸ hclen ▸ hlong))
  obtain ⟨hk, hl⟩ : s.klen.toNat ≤ 64 ∧ s.clen.toNat ≤ 12 := by omega
  by_cases hc : s.LegalConfig ∧ s.LegalTimeStep
  · have hc' := hlegal.mp hc
    have hexec' := execVerify_ok (hklen ▸ hk) (hclen ▸ hl) hc'.1 hc'.2
    rw [← candidateValid_congr hdigits hwindow hkey hst ht hclen hcand] at hexec'
    exact commitsAgree_completed (execVerify_ok hk hl hc.1 hc.2) hexec' (timeCounter_congr hst ht)
  · exact commitsAgree_failed (execVerify_bad hk hl (not_and_or.mp hc))
      (execVerify_bad (hklen ▸ hk) (hclen ▸ hl) (not_and_or.mp (hlegal.not.mp hc)))

end operands

/-! ### The statements of the family -/

/-- Settles O36: the model's padding is the least one, and the digest is the five words byte by byte. -/
theorem sha1PadsAndCompressesInOrder : Obligations.Sha1PadsAndCompressesInOrder := by
  refine fun m => ⟨_, sha1Pad m, _, ?_, zeroPad_mod m.length, fun y => zeroPad_least, sha1Pad_blocks m, rfl, ?_⟩
  · rw [sha1Pad, be64Bytes_eq]
  · simp [sha1, be32Bytes_eq, compressBlocks, sha1Init]

/-- Settles O37: the words of the block, and then the recurrence on the words so far. -/
theorem sha1ScheduleFollowsItsRecurrence : Obligations.Sha1ScheduleFollowsItsRecurrence := by
  refine fun block => ⟨schedule_length block, fun t ht => schedule_getD_block block ht, fun t h16 h80 => ?_⟩
  obtain ⟨n, rfl⟩ := Nat.exists_eq_add_of_le h16
  rw [schedule_getD_succ block (by omega), rotl_eq 1 _ (by decide), show 16 + n - 3 = 13 + n by omega,
    show 16 + n - 8 = 8 + n by omega, show 16 + n - 14 = 2 + n by omega, show 16 + n - 16 = n by omega]

/-- Settles O38: the working states are those of the rounds so far, with the function and constant of each
range of `t`. -/
theorem sha1CompressionRunsEightyRounds : Obligations.Sha1CompressionRunsEightyRounds := by
  refine fun h block => ⟨roundState h block, rfl, fun t ht => ?_, compress_eq_roundState h block⟩
  refine ⟨roundFn t _ _ _, roundConst t, fun h19 => ?_, fun h20 h39 => ?_, fun h40 h59 => ?_, fun h60 => ?_,
    (roundState_succ h block ht).trans (sha1Round_eq _ _ _)⟩
  · have : t < 20 := by omega
    simp [roundFn, roundConst, this]
  · have : ¬ t < 20 ∧ t < 40 := by omega
    simp [roundFn, roundConst, this]
  · have : ¬ t < 20 ∧ ¬ t < 40 ∧ t < 60 := by omega
    simp [roundFn, roundConst, this]
  · have : ¬ t < 20 ∧ ¬ t < 40 ∧ ¬ t < 60 := by omega
    simp [roundFn, roundConst, this]

/-- Settles O39: DIGEST is filled with the MAC, which has its length. -/
theorem hmacWritesTheDigestOfTheCounter : Obligations.HmacWritesTheDigestOfTheCounter := fun _ =>
  ⟨fun hk ha => ⟨_, execHmac_ok hk ha, rfl, digest_toList hk _⟩, execHmac_long, execHmac_bad⟩

/-- Settles O40: DIGEST is the MAC, so the offset and the truncation are those of DIGEST, and CODE_TXT is
filled with the code text. -/
theorem hotpTruncatesAndFormatsTheDigest : Obligations.HotpTruncatesAndFormatsTheDigest := by
  refine fun s => ⟨fun hk hc => ?_, execHotp_long, execHotp_bad⟩
  have hdigest := fillBuffer_toList 20 _ (counterMac_length s.keyBytes s.counter)
  refine ⟨_, execHotp_ok hk hc, ?_, ?_, ?_, ?_, codeValue_toNat _ _, fun k hkd => ?_, fun k hdk => ?_⟩
  · simp only [commit, withHotpResults]
  · exact (congrArg Vector.toList (withHotpResults_digest _ _)).trans (digest_toList hk _)
  · simp [truncOffset_toNat]
  · simp only [commit_trunc, commit_digest, commit_ofs, withHotpResults_trunc, withHotpResults_digest,
      withHotpResults_ofs, hdigest]
    rw [truncValue_toNat, be32_toNat]
  · simp only [commit_codeTxt, commit_code, withHotpResults_codeTxt, withHotpResults_code, Fin.getElem_fin,
      fillBuffer_getElem]
    exact codeText_getD _ _ _ hkd
  · simp only [commit_codeTxt, withHotpResults_codeTxt]
    exact fillBuffer_getElem_tail k (by rwa [codeText_length])

/-- Settles O41: the digits read from the top give the code, since no digit is left above them. -/
theorem codeTextReadsAsTheCode : Obligations.CodeTextReadsAsTheCode := by
  refine fun p d _ => ⟨codeText_length _ d, ?_⟩
  have hread := digits_foldl (codeValue p d).toNat d
  rw [Nat.div_eq_of_lt (by rw [codeValue_toNat]; exact Nat.mod_lt _ (by positivity))] at hread
  exact hread.trans (codeValue_toNat p d)

/-- Settles O49: each command decides its checks and computes its results from its operands. -/
theorem resultsDependOnlyOnTheOperands : Obligations.ResultsDependOnlyOnTheOperands := by
  intro op s s' h
  cases op with
  | nop => exact commitsAgree_completed (r := s) (r' := s') rfl rfl trivial
  | b32Enc => exact b32Enc_commitsAgree h
  | b32Dec => exact b32Dec_commitsAgree h
  | hmac => exact hmac_commitsAgree h
  | tstep => exact tstep_commitsAgree h
  | hotp => exact hotp_commitsAgree h
  | totp => exact totp_commitsAgree h
  | verify => exact verify_commitsAgree h
  | illegal w => exact commitsAgree_failed (e := .illegalCommand) rfl rfl

end Sys2Proof.Machine
end

section
/-! PROOFS. TSTEP, TOTP and VERIFY (spec/42_totp.md): the floor that TSTEP writes, TOTP as TSTEP and then HOTP,
and the window of VERIFY. -/

namespace Sys2Proof.Machine

section totp

variable {s : State}

/-! ### TSTEP and TOTP -/

/-- `legal_time_step()` by the sign bit of TIME (spec/42_totp.md R180). -/
theorem legalTimeStep_iff : s.LegalTimeStep ↔ s.stepReg ≠ 0 ∧ s.time.getLsbD 63 = false := by
  rw [← not_iff_not, ← badTimeStep_iff]
  simp [State.badTimeStep, imp_iff_not_or]

theorem stepReg_pos (ht : s.LegalTimeStep) : 0 < s.stepReg.toNat :=
  Nat.pos_of_ne_zero fun h => ht.1 (BitVec.eq_of_toNat_eq h)

theorem timeCounter_lt (ht : s.LegalTimeStep) : s.timeCounter.toNat < 2 ^ 63 := by
  rw [timeCounter_toNat ht]
  exact (Nat.div_le_self _ _).trans_lt ht.2

/-- HOTP neither reads nor keeps the STATUS part of an earlier commit. -/
theorem commit_withHotpResults_commit (e e' : Completion) (v v' : Bool) (c : DWord) (s : State) :
    commit e v (withHotpResults c (commit e' v' s)) = commit e v (withHotpResults c s) := by
  simp only [commit, withHotpResults, State.keyBytes]

/-! ### VERIFY -/

/-- The window in natural numbers: the members are the counters at most `W` from TIME / STEP
(spec/42_totp.md R183, R184). -/
theorem matches_iff_exists_nat :
    s.Matches ↔ ∃ x : Nat, s.time.toNat / s.stepReg.toNat ≤ x + s.window.toNat ∧
      x ≤ s.time.toNat / s.stepReg.toNat + s.window.toNat ∧ s.MatchesAt (BitVec.ofNat 64 x) := by
  generalize hc : s.time.toNat / s.stepReg.toNat = c
  simp only [State.Matches, hc]
  constructor
  · rintro ⟨k, hlow, hhigh, hpos, hm⟩
    obtain ⟨x, hx⟩ := Int.eq_ofNat_of_zero_le hpos
    rw [hx, BitVec.ofInt_natCast] at hm
    exact ⟨x, by omega, by omega, hm⟩
  · rintro ⟨x, hlow, hhigh, hm⟩
    have hx : (c : Int) + ((x : Int) - c) = x := by omega
    exact ⟨(x : Int) - c, by omega, by omega, by omega, by rwa [hx, BitVec.ofInt_natCast]⟩

/-- A candidate that matches some counter passes the checks on lengths, so VERIFY says whether it matches a member
of the window. -/
theorem execVerify_of_matchesAt {x : DWord} (hk : s.klen.toNat ≤ 64) (hc : s.LegalConfig) (ht : s.LegalTimeStep)
    (hm : s.MatchesAt x) :
    ∃ t, exec .verify s = .next t ∧ t.err = .ok ∧ (t.valid = true ↔ s.Matches) := by
  obtain ⟨hlen, -⟩ := hm
  have hcl : s.clen.toNat ≤ 12 := by
    obtain ⟨-, -, hdigits⟩ := hc
    omega
  exact ⟨_, execVerify_ok hk hcl hc ht, rfl, candidateValid_iff hk hcl hc ht⟩

end totp

/-! ### The statements of the family -/

/-- Settles O42: the truncated quotient is the floor, and it fits since it is at most TIME. -/
theorem tstepWritesTheFloorOfTimeOverStep : Obligations.TstepWritesTheFloorOfTimeOverStep := by
  refine fun s => ⟨fun hstep htime => ?_, fun hbad => execTstep_bad ?_⟩
  · have ht : s.LegalTimeStep := legalTimeStep_iff.mpr ⟨hstep, htime⟩
    refine ⟨_, execTstep_ok ht, rfl, ?_, ?_, timeCounter_lt ht⟩
    · simpa only [commit_counter, timeCounter_toNat ht] using Nat.div_mul_le_self _ _
    · simpa only [commit_counter, timeCounter_toNat ht]
        using Nat.lt_mul_of_div_lt (Nat.lt_succ_self _) (stepReg_pos ht)
  · rw [legalTimeStep_iff]
    rintro ⟨hstep, htime⟩
    exact hbad.elim hstep (Bool.eq_false_iff.mp htime)

/-- Settles O43: the commit of TSTEP changes STATUS and COUNTER only, so HOTP after it passes its checks and writes
what TOTP writes. -/
theorem totpIsTstepThenHotp : Obligations.TotpIsTstepThenHotp := by
  refine fun s => ⟨fun hk hc ht => ?_, execTotp_long, fun hk hbad => execTotp_bad hk (not_and_or.mp hbad)⟩
  have hhotp := execHotp_ok (s := commit .ok false { s with counter := s.timeCounter }) hk hc
  rw [commit_withHotpResults_commit] at hhotp
  exact ⟨_, _, execTstep_ok ht, hhotp, execTotp_ok hk hc ht, rfl, timeCounter_toNat ht⟩

/-- Settles O44: the loop over the window finds a match exactly when a member has one. -/
theorem verifyAcceptsExactlyTheWindow : Obligations.VerifyAcceptsExactlyTheWindow := fun _ =>
  ⟨fun hk hcl hc ht => ⟨_, execVerify_ok hk hcl hc ht, rfl, candidateValid_iff hk hcl hc ht⟩, execVerify_long,
    fun hk hcl hbad => execVerify_bad hk hcl (not_and_or.mp hbad)⟩

/-- Settles O45: one step before is a member of the window when W ≥ 1, and at W = 1 the members are the counter
and its two neighbours. -/
theorem verifyToleratesOneStepOfDrift : Obligations.VerifyToleratesOneStepOfDrift := by
  refine fun s hk hc ht => ⟨fun hw hstep hm => ?_, fun hw hsteps hm => ?_⟩
  · obtain ⟨t, hexec, herr, hvalid⟩ := execVerify_of_matchesAt hk hc ht hm
    have hprev := Nat.div_eq_sub_div (stepReg_pos ht) hstep
    exact ⟨t, hexec, herr, hvalid.mpr (matches_iff_exists_nat.mpr ⟨_, by omega, by omega, hm⟩)⟩
  · obtain ⟨t, hexec, herr, hvalid⟩ := execVerify_of_matchesAt hk hc ht hm
    refine ⟨t, hexec, herr, hvalid.trans (matches_iff_exists_nat.trans ?_)⟩
    have h2 : 2 ≤ s.time.toNat / s.stepReg.toNat := (Nat.le_div_iff_mul_le (stepReg_pos ht)).mpr hsteps
    rw [show s.window.toNat = 1 from congrArg BitVec.toNat hw]
    generalize s.time.toNat / s.stepReg.toNat = c at h2 ⊢
    constructor
    · rintro ⟨x, hlow, hhigh, hx⟩
      exact ⟨x - (c - 1), by omega, by rwa [show c - 1 + (x - (c - 1)) = x by omega]⟩
    · rintro ⟨j, hj, hx⟩
      exact ⟨c - 1 + j, by omega, by omega, hx⟩

end Sys2Proof.Machine
end

section
/-! PROOFS. Reads and writes of the window by register (spec/43_control.md): the word a read returns, the bytes
and bits a write stores, soft reset and NOP. -/

namespace Sys2Proof.Machine

/-! ### Accesses by the name of the register -/

/-- A read of a named register answers its word (spec/43_control.md R212). -/
theorem busRead_offset {r : Reg} {s : State} {w : Word} (hr : r ≠ .reserved) (hw : readReg r s = w) :
    busRead r.offset s = respond ⟨false, some w⟩ s := by
  rw [busRead_aligned _ (offset_aligned r), regAt_offset hr, hw]

/-- A full-word write to a named register (spec/43_control.md R211). -/
theorem busWrite_offset {r : Reg} (v : Word) (s : State) (hr : r ≠ .reserved) :
    busWrite r.offset 0b1111 v s = respond ⟨false, none⟩ (writeReg r v s) := by
  rw [busWrite_full _ _ (offset_aligned r), regAt_offset hr]

theorem ne_reserved_of_isOperand {r : Reg} (h : r.isOperand = true) : r ≠ .reserved := by
  rintro rfl
  cases h

/-- Two aligned offsets of one named register are the same (spec/20_memory.md R63). -/
theorem regAt_inj {a b : BitVec 12} (ha : a.toNat % 4 = 0) (hb : b.toNat % 4 = 0) (hr : regAt b ≠ .reserved)
    (h : regAt a = regAt b) : a = b := by
  rw [← offset_regAt ha (h ▸ hr), h, offset_regAt hb hr]

/-! ### The words of R212 -/

theorem loWord_eq_ofNat (d : DWord) : loWord d = BitVec.ofNat 32 (d.toNat % 2 ^ 32) := by
  apply BitVec.eq_of_toNat_eq
  simp [loWord]

theorem hiWord_eq_ofNat (d : DWord) : hiWord d = BitVec.ofNat 32 (d.toNat / 2 ^ 32) := by
  rw [← Nat.shiftRight_eq_div_pow]
  rfl

theorem cfgWord_eq_ofNat (s : State) :
    s.cfgWord = BitVec.ofNat 32 (s.window.toNat * 256 + s.alg.toNat * 16 + s.digits.toNat) := by
  apply BitVec.eq_of_toNat_eq
  simp only [State.cfgWord, append_toNat, BitVec.toNat_ofNat]
  omega

theorem readReg_ctrl (s : State) : readReg .ctrl s = if s.ie then 1 else 0 := by
  cases h : s.ie <;> simp [readReg, h]

/-! ### Operand registers at IDLE -/

/-- The operand registers without reserved bits (spec/10_state.md R34 to R43). -/
theorem definedBits_offset_whole {r : Reg} (hr : r.isOperand = true) (h1 : r ≠ .cfg) (h2 : r ≠ .klen)
    (h3 : r ≠ .tlen) (h4 : r ≠ .clen) : definedBits r.offset = BitVec.allOnes 32 := by
  cases r with
  | cfg => exact absurd rfl h1
  | klen => exact absurd rfl h2
  | tlen => exact absurd rfl h3
  | clen => exact absurd rfl h4
  | stepReg | timeLo | timeHi | cntLo | cntHi => rfl
  | cand k | key k | text k => clear hr h1 h2 h3 h4; revert k; decide
  | id | ctrl | status | cmd | trunc | code | ofs | codeTxt | digest | reserved => cases hr

/-- An operand register reads back the defined bits of the word written (spec/43_control.md R211). -/
theorem readReg_writeReg_operand {r : Reg} (v : Word) {s : State} (hr : r.isOperand = true)
    (hb : s.busy = false) : readReg r (writeReg r v s) = v &&& definedBits r.offset := by
  cases r with
  | cfg => exact readReg_writeReg_cfg v s hb
  | klen => exact readReg_writeReg_klen v s hb
  | tlen => exact readReg_writeReg_tlen v s hb
  | clen => exact readReg_writeReg_clen v s hb
  | _ =>
    rw [definedBits_offset_whole hr nofun nofun nofun nofun, BitVec.and_allOnes]
    exact readReg_writeReg_whole _ v s hr hb nofun nofun nofun nofun

theorem writeReg_operand_phase {r : Reg} (v : Word) (s : State) (hr : r.isOperand = true) :
    (writeReg r v s).phase = s.phase := by
  cases write_cases r v s with
  | start hr' | reset hr' => rw [hr'] at hr; cases hr
  | covr _ _ ht | ie _ _ ht | status _ ht | wign _ _ ht | same _ ht
  | store _ _ _ _ _ _ _ _ _ _ _ _ _ _ ht => exact (congrArg State.phase ht :)

/-- The bytes of a buffer after a write of its word `k` (spec/20_memory.md R64). -/
theorem setBufferWord_getElem_shift {n : Nat} (buf : Vector Byte n) (k : Nat) (v : Word) (i : Fin n) :
    (setBufferWord buf k v)[i] = if i.val / 4 = k then (v >>> (8 * (i.val % 4))).setWidth 8 else buf[i] := by
  rw [← lane_eq]
  exact setBufferWord_getElem buf k v i i.isLt

theorem busWrite_key (k : Fin 16) (v : Word) {s : State} (hb : s.busy = false) :
    (busWrite (Reg.key k).offset 0b1111 v s).key = setBufferWord s.key k v := by
  rw [busWrite_offset (r := .key k) v s nofun, writeReg, operandWrite_idle _ hb, respond_key]

theorem busWrite_text (k : Fin 32) (v : Word) {s : State} (hb : s.busy = false) :
    (busWrite (Reg.text k).offset 0b1111 v s).text = setBufferWord s.text k v := by
  rw [busWrite_offset (r := .text k) v s nofun, writeReg, operandWrite_idle _ hb, respond_text]

theorem busWrite_cand (k : Fin 3) (v : Word) {s : State} (hb : s.busy = false) :
    (busWrite (Reg.cand k).offset 0b1111 v s).cand = setBufferWord s.cand k v := by
  rw [busWrite_offset (r := .cand k) v s nofun, writeReg, operandWrite_idle _ hb, respond_cand]

/-! ### STATUS and CTRL -/

theorem and_not_eq_ite (a b : Bool) : (a && !b) = if b then false else a := by cases b <;> simp

theorem clearStatus_eq (v : Word) (s : State) :
    clearStatus v s = { s with
      done := if v.getLsbD 1 then false else s.done
      covr := if v.getLsbD 3 then false else s.covr
      wign := if v.getLsbD 4 then false else s.wign } := by
  simp only [clearStatus, and_not_eq_ite]

theorem busWrite_ctrl_reset {v : Word} (s : State) (h : v.getLsbD 1 = true) :
    busWrite 0x004 0b1111 v s = respond ⟨false, none⟩ (resetBlock s) := by
  have hwrite := busWrite_offset (r := .ctrl) v s nofun
  rwa [writeReg, if_pos h] at hwrite

/-! ### The statements of the family -/

/-- Settles O17: the write finds an operand register, another aligned offset names another register, and a store
reaches only what its own register reads. -/
theorem operandWriteReadsBackAndNothingElseChanges : Obligations.OperandWriteReadsBackAndNothingElseChanges := by
  intro s addr v ha hb
  obtain ⟨hr, h4⟩ := operandOffset_spec ha
  have hnamed := ne_reserved_of_isOperand hr
  refine ⟨_, busWrite_full addr v h4, writeReg_operand_phase v s hr, ?_, fun other hother hne => ?_⟩
  · rw [busRead_aligned addr h4, readReg_writeReg_operand v hr hb, offset_regAt h4 hnamed]
  · have hreg : regAt other ≠ regAt addr := fun h => hne (regAt_inj hother h4 hnamed h)
    refine ⟨_, busRead_aligned other hother, ?_⟩
    rw [busRead_aligned other hother, readReg_writeReg_ne _ _ v s hreg hr hb]

/-- Settles O18: each buffer is written by its words. -/
theorem bufferWordHoldsItsFourLanes : Obligations.BufferWordHoldsItsFourLanes := by
  refine ⟨fun s k v hb i => ?_, fun s k v hb i => ?_, fun s k v hb i => ?_⟩
  · rw [← setBufferWord_getElem_shift, ← busWrite_key k v hb, Reg.offset]
  · rw [← setBufferWord_getElem_shift, ← busWrite_text k v hb, Reg.offset]
  · rw [← setBufferWord_getElem_shift, ← busWrite_cand k v hb, Reg.offset]

/-- Settles O13: each offset is that of its register, and the words of R212 are those of `readReg`. -/
theorem readReturnsTheRegister : Obligations.ReadReturnsTheRegister := fun s =>
  ⟨busRead_offset (r := .id) nofun rfl,
    busRead_offset (r := .ctrl) nofun (readReg_ctrl s),
    busRead_offset (r := .cmd) nofun rfl,
    busRead_offset (r := .stepReg) nofun rfl,
    busRead_offset (r := .timeLo) nofun (loWord_eq_ofNat s.time),
    busRead_offset (r := .timeHi) nofun (hiWord_eq_ofNat s.time),
    busRead_offset (r := .cntLo) nofun (loWord_eq_ofNat s.counter),
    busRead_offset (r := .cntHi) nofun (hiWord_eq_ofNat s.counter),
    busRead_offset (r := .cfg) nofun (cfgWord_eq_ofNat s),
    busRead_offset (r := .klen) nofun (BitVec.ofNat_toNat 32 s.klen).symm,
    busRead_offset (r := .tlen) nofun (BitVec.ofNat_toNat 32 s.tlen).symm,
    busRead_offset (r := .clen) nofun (BitVec.ofNat_toNat 32 s.clen).symm,
    busRead_offset (r := .trunc) nofun (BitVec.ofNat_toNat 32 s.trunc).symm,
    busRead_offset (r := .code) nofun (BitVec.ofNat_toNat 32 s.code).symm,
    busRead_offset (r := .ofs) nofun (BitVec.ofNat_toNat 32 s.ofs).symm⟩

/-- Settles O15: the write clears by bits, and irq is IE and DONE. -/
theorem statusWriteClearsByBit : Obligations.StatusWriteClearsByBit := fun s v =>
  ⟨clearStatus v s, busWrite_offset (r := .status) v s nofun, clearStatus_eq v s,
    fun h => by rw [State.irq, clearStatus_done, h, Bool.not_true, Bool.and_false, Bool.and_false]⟩

/-- Settles O21: the write has the effect of a reset. -/
theorem softResetRestoresEveryRegister : Obligations.SoftResetRestoresEveryRegister := fun s _ h =>
  have hreset := resetBlock_atReset s
  ⟨resetBlock s, busWrite_ctrl_reset s h, hreset, hreset.irq⟩

/-- Settles O30: NOP is the commit alone, and its word is an instance of a CMD write. -/
theorem nopCommitsOk : Obligations.NopCommitsOk := fun _ =>
  ⟨⟨_, rfl, rfl, fun hie => Bool.and_eq_true_iff.mpr ⟨hie, rfl⟩⟩, busWrite_cmd_idle 0, busWrite_cmd_busy 0⟩

end Sys2Proof.Machine
end

section
/-! PROOFS. Completion codes, commits, irq and the two 64-bit registers (spec/60_exceptions.md): what a start and a
commit do, which code a commit reports, what raises and clears irq, and what changes COUNTER and TIME. -/

namespace Sys2Proof.Machine

/-! ### irq -/

@[simp] theorem respond_irq (r : Response) (s : State) : (respond r s).irq = s.irq := rfl

theorem irq_eq_true_iff {s : State} : s.irq = true ↔ s.ie = true ∧ s.done = true := Bool.and_eq_true_iff

theorem irq_eq_false_of_done {s : State} (h : s.done = false) : s.irq = false := by
  rw [State.irq, h, Bool.and_false]

theorem irq_eq_false_of_ie {s : State} (h : s.ie = false) : s.irq = false := by
  rw [State.irq, h, Bool.false_and]

theorem busWrite_ctrl_reset_irq {v : Word} (s : State) (h : v.getLsbD 1 = true) :
    (busWrite 0x004 0b1111 v s).irq = false := by
  rw [busWrite_ctrl_reset s h, respond_irq]
  exact (resetBlock_atReset s).irq

/-! ### What a commit leaves -/

section onlyResults

variable {op : Instr} {s t : State} (h : OnlyResults op s t)
include h

theorem OnlyResults.ie : t.ie = s.ie := by cases op <;> exact (congrArg State.ie h :)
theorem OnlyResults.time : t.time = s.time := by cases op <;> exact (congrArg State.time h :)

theorem OnlyResults.counter (h1 : op ≠ .tstep) (h2 : op ≠ .totp) (h3 : op ≠ .verify) :
    t.counter = s.counter := by
  cases op
  case tstep => exact absurd rfl h1
  case totp => exact absurd rfl h2
  case verify => exact absurd rfl h3
  all_goals exact (congrArg State.counter h :)

end onlyResults

/-! ### The code of a commit, in the order of spec/60_exceptions.md R235 -/

section codes

variable {op : Instr} {s : State}

/-- A length register that does not fit is reported before anything else the command reads. -/
theorem exec_lengthTooBig (h : LengthTooBig op s) : exec op s = .next (commit .capacityExceeded false s) := by
  cases op with
  | b32Enc => exact execB32Enc_long h
  | b32Dec => exact execB32Dec_long h
  | hmac => exact execHmac_long h
  | hotp => exact execHotp_long h
  | totp => exact execTotp_long h
  | verify => exact execVerify_long h
  | nop | tstep | illegal => exact h.elim

/-- An illegal parameter is reported next. -/
theorem exec_badParameter (hl : ¬ LengthTooBig op s) (hp : BadParameter op s) :
    exec op s = .next (commit .invalidParameters false s) := by
  cases op with
  | hmac => exact execHmac_bad (Nat.not_lt.mp hl) hp
  | tstep => exact execTstep_bad hp
  | hotp => exact execHotp_bad (Nat.not_lt.mp hl) hp
  | totp => exact execTotp_bad (Nat.not_lt.mp hl) hp
  | verify =>
    obtain ⟨hk, hc⟩ := not_or.mp hl
    exact execVerify_bad (Nat.not_lt.mp hk) (Nat.not_lt.mp hc) hp
  | nop | b32Enc | b32Dec | illegal => exact hp.elim

/-- A command that checks no data of its own succeeds when its lengths and its parameters are legal. -/
theorem exec_legal (hi : ∀ w, op ≠ .illegal w) (hd : op ≠ .b32Dec) (hl : ¬ LengthTooBig op s)
    (hp : ¬ BadParameter op s) : ∃ v r, exec op s = .next (commit .ok v r) := by
  cases op with
  | nop => exact ⟨_, _, rfl⟩
  | b32Enc => exact ⟨_, _, execB32Enc_ok (Nat.not_lt.mp hl)⟩
  | b32Dec => exact absurd rfl hd
  | hmac => exact ⟨_, _, execHmac_ok (Nat.not_lt.mp hl) (not_not.mp hp)⟩
  | tstep => exact ⟨_, _, execTstep_ok (not_not.mp hp)⟩
  | hotp => exact ⟨_, _, execHotp_ok (Nat.not_lt.mp hl) (not_not.mp hp)⟩
  | totp =>
    obtain ⟨hc, ht⟩ := not_or.mp hp
    exact ⟨_, _, execTotp_ok (Nat.not_lt.mp hl) (not_not.mp hc) (not_not.mp ht)⟩
  | verify =>
    obtain ⟨hk, hcl⟩ := not_or.mp hl
    obtain ⟨hc, ht⟩ := not_or.mp hp
    exact ⟨_, _, execVerify_ok (Nat.not_lt.mp hk) (Nat.not_lt.mp hcl) (not_not.mp hc) (not_not.mp ht)⟩
  | illegal w => exact absurd rfl (hi w)

end codes

/-- Why a commit of `op` reports the code `e`: the checks of spec/60_exceptions.md R235 in their order, each with the
failure of the checks before it. `chars` is the stripped text. -/
inductive Reports (op : Instr) (s : State) (chars : List Byte) : Completion → Prop
  | illegal {w : Word} (hop : op = .illegal w) : Reports op s chars .illegalCommand
  | lengthTooBig (hl : LengthTooBig op s) : Reports op s chars .capacityExceeded
  | badParameter (hl : ¬ LengthTooBig op s) (hp : BadParameter op s) : Reports op s chars .invalidParameters
  | badText (hop : op = .b32Dec) (hl : ¬ LengthTooBig op s) (ht : BadCharacter chars ∨ BadLength chars) :
      Reports op s chars .invalidEncoding
  | tooMuch (hop : op = .b32Dec) (hl : ¬ LengthTooBig op s) (hc : ¬ BadCharacter chars)
      (hb : ¬ BadLength chars) (hm : 64 < 5 * chars.length / 8) : Reports op s chars .capacityExceeded
  | ok (hi : ∀ w, op ≠ .illegal w) (hl : ¬ LengthTooBig op s) (hp : ¬ BadParameter op s)
      (hd : op = .b32Dec → ¬ BadCharacter chars ∧ ¬ BadLength chars ∧ 5 * chars.length / 8 ≤ 64) :
      Reports op s chars .ok

/-- The data checks of B32_DEC come last (spec/40_base32.md R114). -/
theorem b32Dec_reports {s : State} {chars : List Byte} (hs : StrippedText s.textBytes chars)
    (hl : ¬ LengthTooBig .b32Dec s) : ∃ t, exec .b32Dec s = .next t ∧ Reports .b32Dec s chars t.err := by
  have hlen : s.tlen.toNat ≤ 128 := Nat.not_lt.mp hl
  by_cases hc : BadCharacter chars
  · exact ⟨_, execB32Dec_error hlen (base32Decode_badCharacter hs hc), .badText rfl hl (.inl hc)⟩
  by_cases hb : BadLength chars
  · exact ⟨_, execB32Dec_error hlen (base32Decode_badLength hs hb), .badText rfl hl (.inr hb)⟩
  rcases Nat.lt_or_ge 64 (5 * chars.length / 8) with hm | hm
  · exact ⟨_, execB32Dec_error hlen (base32Decode_tooMuch hs hc hb hm), .tooMuch rfl hl hc hb hm⟩
  · obtain ⟨vs, hv⟩ := Option.ne_none_iff_exists'.mp (charValues_eq_none.not.mpr hc)
    exact ⟨_, execB32Dec_ok hlen (base32Decode_ok hs hv hb hm), .ok nofun hl id fun _ => ⟨hc, hb, hm⟩⟩

theorem exec_reports {op : Instr} {s : State} {chars : List Byte} (hs : StrippedText s.textBytes chars) :
    ∃ t, exec op s = .next t ∧ Reports op s chars t.err := by
  by_cases hi : ∃ w, op = .illegal w
  · obtain ⟨w, rfl⟩ := hi
    exact ⟨_, rfl, .illegal rfl⟩
  by_cases hl : LengthTooBig op s
  · exact ⟨_, exec_lengthTooBig hl, .lengthTooBig hl⟩
  by_cases hp : BadParameter op s
  · exact ⟨_, exec_badParameter hl hp, .badParameter hl hp⟩
  by_cases hd : op = .b32Dec
  · subst hd
    exact b32Dec_reports hs hl
  · obtain ⟨v, r, h⟩ := exec_legal (not_exists.mp hi) hd hl hp
    exact ⟨_, h, .ok (not_exists.mp hi) hl hp fun hop => absurd hop hd⟩

namespace Reports

variable {op : Instr} {s : State} {chars : List Byte} {e : Completion} (h : Reports op s chars e)
include h

theorem illegalCommand_iff : e = .illegalCommand ↔ ∃ w, op = .illegal w := by
  cases h with
  | illegal hop => exact iff_of_true rfl ⟨_, hop⟩
  | lengthTooBig hl => exact iff_of_false nofun fun ⟨_, hop⟩ => by subst hop; exact hl
  | badParameter _ hp => exact iff_of_false nofun fun ⟨_, hop⟩ => by subst hop; exact hp
  | badText hop | tooMuch hop => subst hop; exact iff_of_false nofun nofun
  | ok hi => exact iff_of_false nofun (not_exists.mpr hi)

theorem invalidParameters_iff : e = .invalidParameters ↔ ¬ LengthTooBig op s ∧ BadParameter op s := by
  cases h with
  | lengthTooBig hl => exact iff_of_false nofun fun ⟨hl', _⟩ => hl' hl
  | badParameter hl hp => exact iff_of_true rfl ⟨hl, hp⟩
  | illegal hop | badText hop | tooMuch hop => subst hop; exact iff_of_false nofun And.right
  | ok _ _ hp => exact iff_of_false nofun fun ⟨_, hp'⟩ => hp hp'

theorem invalidEncoding_iff :
    e = .invalidEncoding ↔
      op = .b32Dec ∧ ¬ LengthTooBig op s ∧ (BadCharacter chars ∨ BadLength chars) := by
  cases h with
  | illegal hop => subst hop; exact iff_of_false nofun nofun
  | lengthTooBig hl => exact iff_of_false nofun fun ⟨_, hl', _⟩ => hl' hl
  | badParameter _ hp => exact iff_of_false nofun fun ⟨hop, _⟩ => by subst hop; exact hp
  | badText hop hl ht => exact iff_of_true rfl ⟨hop, hl, ht⟩
  | tooMuch _ _ hc hb => exact iff_of_false nofun fun ⟨_, _, ht⟩ => ht.elim hc hb
  | ok _ _ _ hd =>
    refine iff_of_false nofun fun ⟨hop, _, ht⟩ => ?_
    obtain ⟨hc, hb, -⟩ := hd hop
    exact ht.elim hc hb

theorem capacityExceeded_iff :
    e = .capacityExceeded ↔
      LengthTooBig op s ∨
        (op = .b32Dec ∧ ¬ BadCharacter chars ∧ ¬ BadLength chars ∧ 64 < 5 * chars.length / 8) := by
  cases h with
  | illegal hop => subst hop; exact iff_of_false nofun (not_or.mpr ⟨id, nofun⟩)
  | lengthTooBig hl => exact iff_of_true rfl (.inl hl)
  | badParameter hl hp =>
    exact iff_of_false nofun (not_or.mpr ⟨hl, fun ⟨hop, _⟩ => by subst hop; exact hp⟩)
  | badText _ hl ht => exact iff_of_false nofun (not_or.mpr ⟨hl, fun ⟨_, hc, hb, _⟩ => ht.elim hc hb⟩)
  | tooMuch hop _ hc hb hm => exact iff_of_true rfl (.inr ⟨hop, hc, hb, hm⟩)
  | ok _ hl _ hd =>
    refine iff_of_false nofun (not_or.mpr ⟨hl, fun ⟨hop, _, _, hm⟩ => ?_⟩)
    obtain ⟨-, -, hfits⟩ := hd hop
    exact Nat.not_lt.mpr hfits hm

end Reports

/-- The stripped text is unique, so what holds of one is said of all. -/
theorem exists_strippedText_iff {text chars : List Byte} (h : StrippedText text chars) (p : List Byte → Prop) :
    (∃ cs, StrippedText text cs ∧ p cs) ↔ p chars := by
  constructor
  · rintro ⟨cs, hcs, hp⟩
    rwa [← stripPadding_eq h, stripPadding_eq hcs]
  · exact fun hp => ⟨chars, h, hp⟩

/-! ### The next event -/

theorem engineMove_idle {s : State} (hp : s.phase = .idle) : engineMove s = .next s := by
  simp only [engineMove, hp]

/-- A write at one of two offsets, such as those of the two words of a 64-bit register. -/
theorem exists_write_at {s : State} {addr lo hi : BitVec 12} {v : Word} {rest : List Event}
    (hin : s.inbox = .access (writeAccess addr v) :: rest) (h : addr = lo ∨ addr = hi) :
    ∃ v rest, s.inbox = .access (writeAccess lo v) :: rest ∨ s.inbox = .access (writeAccess hi v) :: rest := by
  obtain rfl | rfl := h
  · exact ⟨v, rest, .inl hin⟩
  · exact ⟨v, rest, .inr hin⟩

/-! ### The statements of the family -/

/-- Settles O46: a failed commit writes STATUS alone, and a completed one has ERR = OK. -/
theorem everyCommandCommitsAndErrorsArePrecise : Obligations.EveryCommandCommitsAndErrorsArePrecise := by
  intro op s
  cases exec_cases op s with
  | failed e _ h => exact ⟨_, h, rfl, rfl, fun _ => rfl⟩
  | completed v r h => exact ⟨_, h, rfl, rfl, fun herr => absurd rfl herr⟩

/-- Settles O47: the checks in the order of R235, on the one stripped text. -/
theorem eachErrorIsReportedExactlyWhenItApplies : Obligations.EachErrorIsReportedExactlyWhenItApplies := by
  intro op s t h
  have hs := stripPadding_stripped s.textBytes
  obtain ⟨u, hu, hr⟩ := exec_reports (op := op) hs
  cases hu.symm.trans h
  refine ⟨hr.illegalCommand_iff, hr.invalidParameters_iff, hr.invalidEncoding_iff.trans ?_,
    hr.capacityExceeded_iff.trans ?_⟩
  · exact and_congr_right' (and_congr_right' (exists_strippedText_iff hs
      fun chars => BadCharacter chars ∨ BadLength chars).symm)
  · exact or_congr_right (and_congr_right' (exists_strippedText_iff hs
      fun chars => ¬ BadCharacter chars ∧ ¬ BadLength chars ∧ 64 < 5 * chars.length / 8).symm)

/-- Settles O25: a commit sets DONE and leaves IE, and irq is IE and DONE. -/
theorem interruptIsEnableAndDone : Obligations.InterruptIsEnableAndDone := by
  refine ⟨fun op s => ?_, fun s v hie hreset hdone => ?_, fun s => irq_eq_true_iff⟩
  · obtain ⟨t, ht, hres⟩ := exec_onlyResults op s
    exact ⟨t, ht, hres.done, by simp [irq_eq_true_iff, hres.ie, hres.done]⟩
  · rw [busWrite_ctrl v s hreset, respond_irq, irq_eq_true_iff]
    exact ⟨hie, hdone⟩

/-- Settles O26: each event clears IE or DONE, and irq is IE and DONE. -/
theorem interruptIsClearedByEachListedEvent : Obligations.InterruptIsClearedByEachListedEvent := by
  refine fun s => ⟨fun v hv => ?_, fun w hb => ?_, fun v hie => ?_, fun v hv => busWrite_ctrl_reset_irq s hv,
    fun cut => (assertReset_atReset cut s).irq, fun _ _ => rfl⟩
  · obtain ⟨t, ht, -, hirq⟩ := statusWriteClearsByBit s v
    rw [ht, respond_irq, hirq hv]
  · rw [busWrite_cmd_idle w hb]
    exact irq_eq_false_of_done rfl
  · cases hreset : v.getLsbD 1 with
    | false => rw [busWrite_ctrl v s hreset]; exact irq_eq_false_of_ie hie
    | true => exact busWrite_ctrl_reset_irq s hreset

/-- Settles O54: COUNTER changes at a commit that writes it, at the store of one of its words, or at a reset. -/
theorem counterDoesNotAdvanceByItself : Obligations.CounterDoesNotAdvanceByItself := by
  intro s t h hne
  cases step_effect h with
  | @commits op _ he hc =>
    by_cases h1 : op = .tstep
    · exact .inl (h1 ▸ hc)
    by_cases h2 : op = .totp
    · exact .inr (.inl (h2 ▸ hc))
    by_cases h3 : op = .verify
    · exact .inr (.inr (.inl (h3 ▸ hc)))
    · exact absurd ((onlyResults_of_exec he).counter h1 h2 h3) hne
  | resets _ hr => exact .inr (.inr (.inr (.inl hr)))
  | stores hu hi _ hp _ _ hcounter =>
    rw [hu] at hne
    have hoffset := (hcounter hne).imp regAt_cntLo regAt_cntHi
    exact .inr (.inr (.inr (.inr ⟨hp, exists_write_at hi hoffset⟩)))
  | starts hu | clears hu | flags hu | keeps hu => exact absurd (congrArg State.counter hu :) hne

/-- Settles O55: no command writes TIME, so it changes at the store of one of its words or at a reset. -/
theorem timeIsWrittenByTheHostAlone : Obligations.TimeIsWrittenByTheHostAlone := by
  intro s t h hne
  cases step_effect h with
  | commits he => exact absurd (onlyResults_of_exec he).time hne
  | resets _ hr => exact .inl hr
  | stores hu hi _ hp _ _ _ htime =>
    rw [hu] at hne
    exact .inr ⟨hp, exists_write_at hi ((htime hne).imp regAt_timeLo regAt_timeHi)⟩
  | starts hu | clears hu | flags hu | keeps hu => exact absurd (congrArg State.time hu :) hne

/-- Settles O5: the engine's turn commits the running command, and an IDLE engine has none. -/
theorem stepOfTheEngineRunsTheCommand : Obligations.StepOfTheEngineRunsTheCommand := fun _ _ =>
  ⟨fun _ hp hi => step_commit hp (.inr hi), fun _ hp hi => (step_nil hi).trans (engineMove_busy hp),
    fun hp hi => (step_cons hi).trans (engineMove_idle hp), fun hp hi => (step_nil hi).trans (engineMove_idle hp)⟩

/-- Settles O8: the write starts the decoded command, which clears DONE. -/
theorem cmdWriteStartsTheDecodedCommand : Obligations.CmdWriteStartsTheDecodedCommand := fun _ w hb =>
  ⟨_, busWrite_cmd_idle w hb, irq_eq_false_of_done rfl, rfl, rfl⟩

/-- Settles O31: an illegal command raises IllegalCommand at once, and such a word decodes to one. -/
theorem illegalWordCommitsIllegalCommand : Obligations.IllegalWordCommitsIllegalCommand := by
  refine fun s w => ⟨rfl, fun h => ?_⟩
  have hw : illegalWord w = true := by simpa [illegalWord] using h
  rw [(decodeWord_eq_illegal_iff w).mpr hw]
  rfl

end Sys2Proof.Machine
end

section
/-! PROOFS. The reset input (spec/70_reset_and_hazards.md): what its fall leaves beside the registers, and when a
step is refused. -/

namespace Sys2Proof.Machine

/-! ### The fall of rst_n -/

@[simp] theorem assertReset_rstLow (cut : Bool) (s : State) : (assertReset cut s).rstLow = true := by
  cases cut <;> rfl

@[simp] theorem assertReset_inbox (cut : Bool) (s : State) : (assertReset cut s).inbox = s.inbox := by
  cases cut <;> rfl

/-! ### Which moves answer a next state -/

theorem engineMove_answers (s : State) : ∃ t, engineMove s = .next t := by
  cases hp : s.phase with
  | idle => exact ⟨s, engineMove_idle hp⟩
  | busy op =>
    obtain ⟨t, ht, -⟩ := exec_onlyResults op s
    exact ⟨t, (engineMove_busy hp).trans ht⟩

theorem step_access_refused {s : State} {a : BusAccess} {rest : List Event} (hl : s.rstLow = true)
    (hi : s.inbox = .access a :: rest) : step s = .refused .accessDuringReset :=
  (step_cons hi).trans (if_pos hl)

theorem step_answers {s : State} (h : ¬ (s.rstLow = true ∧ ∃ a rest, s.inbox = .access a :: rest)) :
    ∃ t, step s = .next t := by
  cases hi : s.inbox with
  | nil => exact step_nil hi ▸ engineMove_answers s
  | cons e rest =>
    cases e with
    | access a =>
      have hl : s.rstLow = false := Bool.eq_false_iff.mpr fun hl => h ⟨hl, a, rest, hi⟩
      exact ⟨_, step_access hl hi⟩
    | engineTurn => exact step_cons hi ▸ engineMove_answers { s with inbox := rest }
    | resetAssert cut => exact ⟨_, step_cons hi⟩
    | resetRelease => exact ⟨_, step_cons hi⟩

/-! ### The statements of the family -/

/-- Settles O29: a host access is refused while rst_n is low, and every other move answers a next state. -/
theorem onlyAnAccessDuringResetIsRefused : Obligations.OnlyAnAccessDuringResetIsRefused := fun _ =>
  ⟨fun hl ⟨_, _, hi⟩ => step_access_refused hl hi, step_answers⟩

/-- Settles O22: the fall has the effect of a reset, and the rise changes the level of rst_n alone. -/
theorem hardwareResetRestoresEveryRegister : Obligations.HardwareResetRestoresEveryRegister := by
  refine ⟨fun s cut rest hi => ?_, fun s rest hs hi => ?_⟩
  · have hreset := assertReset_atReset cut { s with inbox := rest }
    exact ⟨_, step_cons hi, hreset, hreset.irq, assertReset_rstLow cut _, assertReset_inbox cut _⟩
  · exact ⟨_, step_cons hi, hs.with_modelFields false rest s.response, rfl, rfl⟩

end Sys2Proof.Machine
end
